-- ==== Sys2Proof/Word.lean ====
section
/-! DEFINITION. The words of the block: the three bit widths the spec gives (00_scope.md R1 `XLEN`, `TOKEN_BITS`;
20_memory.md R40: a memory location is one 8-bit byte). -/

namespace Sys2Proof

/-- A memory location (R40). -/
abbrev Byte := BitVec 8

/-- A token or an rgb565 pixel (R1 `TOKEN_BITS` = 16, R60). -/
abbrev Half := BitVec 16

/-- A register of the block and a memory address (R1 `XLEN` = `ALEN` = 32). -/
abbrev Word := BitVec 32

end Sys2Proof
end

