-- ==== Sys2Proof/Syntax.lean ====
section
/-! DEFINITION. The instructions: one constructor for each row of spec/opcode_table.json. The six commands and the
reserved command words are values written to CMD (30_encoding.md R66, R67); the four token rows are the 16-bit words
of a NibbleRLE16 stream, which DECODE interprets (R60, R61, R65). -/

namespace Sys2Proof

/-- One row of the opcode table. -/
inductive Instr where
  /-- `CLEAR`, command word 0 (R150). -/
  | clear
  /-- `DECODE`, command word 1 (R108). -/
  | decode
  /-- `ENCODE`, command word 2 (R125). -/
  | encode
  /-- `ENC_SIZE`, command word 3 (R126). -/
  | encSize
  /-- `UNPACK16`, command word 4 (R86). -/
  | unpack16
  /-- `UNPACK8`, command word 5 (R87). -/
  | unpack8
  /-- `CMD_RESERVED`: any other command word, by its fields `ZERO` = bits 31:4 and `OP` = bits 3:0 (R67, R173). -/
  | cmdReserved (zero : BitVec 28) (op : BitVec 4)
  /-- `EOR`, the sentinel 0x0000 (R64, R105). -/
  | eor
  /-- `ZRUN r, g, b`: zero count, non-zero colour (R68, R104). -/
  | zrun (r g b : BitVec 4)
  /-- `RUN r, g, b, n` (R103). -/
  | run (r g b n : BitVec 4)
  /-- `PAD v`: the word after the sentinel of a row whose byte count is 2 mod 4 (R65, R106). -/
  | pad (v : Half)
  deriving DecidableEq, Repr

end Sys2Proof
end

