-- ==== Sys2Proof/WellFormed.lean ====
section
/-! DEFINITION. Which terms of `Instr` stand for a word of their own row: the constraints of spec/opcode_table.json. -/

namespace Sys2Proof

/-- The row's constraint: a reserved command word is none of the six legal ones (R67); a `ZRUN` is not the sentinel
(R61: class 1 is tested first); a `RUN` has a count that is not zero (R61 class 3). -/
def Instr.wellFormed : Instr → Bool
  | .clear => true
  | .decode => true
  | .encode => true
  | .encSize => true
  | .unpack16 => true
  | .unpack8 => true
  | .cmdReserved zero op => !(zero == 0#28 && decide (op.toNat ≤ 5))
  | .eor => true
  | .zrun r g b => !(r == 0#4 && g == 0#4 && b == 0#4)
  | .run _ _ _ n => !(n == 0#4)
  | .pad _ => true

end Sys2Proof
end

