-- ==== Sys2Proof/Decode.lean ====
section
/-! DEFINITION. The decoder and, after it, the encoder. A word's row depends on where it stands: written to CMD
(30_encoding.md R66), in the item position of a row (R61), or in the pad position (R65). -/

namespace Sys2Proof

/-- Where an instruction word stands. -/
inductive Slot where
  /-- A value written to CMD: four bytes. -/
  | command
  /-- The item position of a stream row: two bytes (R61). -/
  | item
  /-- The pad position of a stream row: two bytes (R65). -/
  | padding
  deriving DecidableEq, Repr

/-- The bytes an instruction of this slot takes (R60, R66). -/
def Slot.width : Slot → Nat
  | .command => 4
  | .item => 2
  | .padding => 2

/-- Why bytes were rejected: only because there are too few of them; every value has a meaning (R61, R67). -/
inductive DecodeError where
  /-- Fewer than four bytes of a command word. -/
  | truncatedCommand
  /-- Fewer than two bytes of a stream word. -/
  | truncatedToken
  deriving DecidableEq, Repr

/-- The rejection a slot answers with. -/
def Slot.truncated : Slot → DecodeError
  | .command => .truncatedCommand
  | .item => .truncatedToken
  | .padding => .truncatedToken

/-- Two stored bytes as a 16-bit value, the lower address the less significant (R42). -/
def halfOfBytes (b0 b1 : Byte) : Half := b1 ++ b0

/-- Four stored bytes as a 32-bit value, the lowest address the least significant. -/
def wordOfBytes (b0 b1 b2 b3 : Byte) : Word := b3 ++ b2 ++ b1 ++ b0

/-- R66: the value written to CMD, decoded on all 32 bits. -/
def decodeCommand (v : Word) : Instr :=
  if v = 0#32 then .clear
  else if v = 1#32 then .decode
  else if v = 2#32 then .encode
  else if v = 3#32 then .encSize
  else if v = 4#32 then .unpack16
  else if v = 5#32 then .unpack8
  else .cmdReserved (v.extractLsb' 4 28) (v.extractLsb' 0 4)

/-- R61: the class of a word in the item position, first match wins; the fields are those of R60. -/
def decodeItem (t : Half) : Instr :=
  if t = 0#16 then .eor
  else if t.extractLsb' 0 4 = 0#4 then .zrun (t.extractLsb' 12 4) (t.extractLsb' 8 4) (t.extractLsb' 4 4)
  else .run (t.extractLsb' 12 4) (t.extractLsb' 8 4) (t.extractLsb' 4 4) (t.extractLsb' 0 4)

/-- R65: a word in the pad position is a pad word whatever its value. -/
def decodePad (v : Half) : Instr := .pad v

/-- The decoder: the instruction at the head of the bytes of a slot, and the bytes after it. -/
def decode (slot : Slot) (bytes : List Byte) : Except DecodeError (Instr × List Byte) :=
  match slot, bytes with
  | .command, b0 :: b1 :: b2 :: b3 :: rest => .ok (decodeCommand (wordOfBytes b0 b1 b2 b3), rest)
  | .command, _ => .error .truncatedCommand
  | .item, b0 :: b1 :: rest => .ok (decodeItem (halfOfBytes b0 b1), rest)
  | .item, _ => .error .truncatedToken
  | .padding, b0 :: b1 :: rest => .ok (decodePad (halfOfBytes b0 b1), rest)
  | .padding, _ => .error .truncatedToken

/-- The slot an instruction belongs to. -/
def Instr.slot : Instr → Slot
  | .clear => .command
  | .decode => .command
  | .encode => .command
  | .encSize => .command
  | .unpack16 => .command
  | .unpack8 => .command
  | .cmdReserved _ _ => .command
  | .eor => .item
  | .zrun _ _ _ => .item
  | .run _ _ _ _ => .item
  | .pad _ => .padding

/-- A value's bytes as they are stored, the least significant first (R43, R60). -/
def bytesOfHalf (v : Half) : List Byte := [v.extractLsb' 0 8, v.extractLsb' 8 8]

/-- A command word's bytes, the least significant first. -/
def bytesOfWord (v : Word) : List Byte :=
  [v.extractLsb' 0 8, v.extractLsb' 8 8, v.extractLsb' 16 8, v.extractLsb' 24 8]

/-- The token word `{R, G, B, N}` (R60). -/
def tokenWord (r g b n : BitVec 4) : Half := r ++ g ++ b ++ n

/-- The encoder: the stored bytes of an instruction, from the encodings of R60, R66 and R71. -/
def encode : Instr → List Byte
  | .clear => bytesOfWord 0#32
  | .decode => bytesOfWord 1#32
  | .encode => bytesOfWord 2#32
  | .encSize => bytesOfWord 3#32
  | .unpack16 => bytesOfWord 4#32
  | .unpack8 => bytesOfWord 5#32
  | .cmdReserved zero op => bytesOfWord (zero ++ op)
  | .eor => bytesOfHalf 0#16
  | .zrun r g b => bytesOfHalf (tokenWord r g b 0#4)
  | .run r g b n => bytesOfHalf (tokenWord r g b n)
  | .pad v => bytesOfHalf v

/-- R72 `PIX p, n`: the run token the encoder makes for the rgb565 pixel `p`. -/
def Instr.pix (p : Half) (n : BitVec 4) : Instr :=
  .run (p.extractLsb' 12 4) (p.extractLsb' 7 4) (p.extractLsb' 1 4) n

/-- R72 `ENDROW`: the sentinel, and a zero pad word exactly when `items` items and the sentinel are an odd number of
words. -/
def Instr.endrow (items : Nat) : List Instr :=
  if (items + 1) % 2 = 1 then [.eor, .pad 0#16] else [.eor]

/-- The instruction the decoder reads from the table's bits `w`: a command word for the 32-bit rows, a word in the
item position for the 16-bit rows. The pad row is decided by position and not by bits (R65): it is not reached here,
notes/assumptions/10.md. -/
def decodeTableWord (nbits w : Nat) : Option Instr :=
  let read : Except DecodeError (Instr × List Byte) :=
    if nbits ≤ 16 then decode .item (bytesOfHalf (BitVec.ofNat 16 w))
    else decode .command (bytesOfWord (BitVec.ofNat 32 w))
  match read with
  | .ok (i, _) => some i
  | .error _ => none

end Sys2Proof
end

