-- ==== Sys2Proof/Config.lean ====
section
/-! DEFINITION. The parameters of 00_scope.md R1 and the free values of the model. `LATENCY` (OPEN) has no constant:
the order of moves in `Machine.State.agenda` says when the engine moves (R201: no rule reads the time). -/

namespace Sys2Proof

/-- `QMASK` (R1, R2): the pixel bits that survive 4-bit-per-channel quantization. -/
def Config.qmask : Half := 0xF79E#16

/-- `MAX_RUN` (R1, R129): the largest run length the encoder puts in one token. -/
def Config.maxRun : Nat := 15

/-- `DEC_BLUE_SHIFT` (R1, 90_conflicts.md C1): this hardware takes 3. -/
def Config.decBlueShift : Nat := 3

/-- The literal of the source's formula (R82): an instantiation this hardware does not take. -/
def Config.sourceBlueShift : Nat := 2

/-- What an address that no cell of memory lists reads as. The spec leaves the first contents of memory open
(R27, U6); DESIGN CHOICE, notes/assumptions/1.md. -/
def Config.unlistedByte : Byte := 0#8

/-- Capacity of the ENC_SIZE pass, `CAP = 0xFFFFFFFF` (R126). -/
def Config.encSizeCap : Nat := 0xFFFFFFFF

/-- `REG_BASE` (R1, OPEN; 92_eei_decisions.md D2): where the platform puts register offset 0. An implementation
fixes it; the model leaves it without a value. -/
opaque Config.regBase : Word

/-- The byte that address `addr` of a write set holds after the `draw`-th time the spec leaves a write set
unspecified (60_exceptions.md R177, 70_reset_and_hazards.md R191). A free value: it has no body a proof could use. -/
opaque Config.freeByte (draw addr : Nat) : Byte

end Sys2Proof
end

