-- ==== Sys2Proof/Machine/State.lean ====
section
/-! DEFINITION. The state of the machine as plain data: the registers of 10_state.md R10, the working state of a
running DECODE and the pending command word (R21), memory (R25, R40), the level of `rst` (R190), and three fields of
the model's own (the moves still to come, the value the host last read, the count of free draws). -/

namespace Sys2Proof.Machine

/-- The six operand registers `x[0]` .. `x[5]` (R10, R11). Every 32-bit value can be written and is read back (R13). -/
structure Operands where
  /-- STREAM_ADDR, offset 0x10. -/
  streamAddr : Word
  /-- STREAM_LEN, offset 0x14. -/
  streamLen : Word
  /-- PIX_ADDR, offset 0x18. -/
  pixAddr : Word
  /-- PIX_STRIDE, offset 0x1C. -/
  pixStride : Word
  /-- WIDTH, offset 0x20, two's complement (R12). -/
  width : Word
  /-- HEIGHT, offset 0x24, two's complement (R12). -/
  height : Word
  deriving DecidableEq, Repr

/-- The error names of 60_exceptions.md R170; `code` in Flags.lean gives their numbers. The first three after
`noError` are the host software's and are never raised by the block (R183). -/
inductive ErrCode where
  | noError
  | truncatedInput
  | badMagic
  | sizeInconsistency
  | unsupportedCompression
  | dimensionError
  | insufficientPixelData
  | rowOverrun
  | allocationFailure
  | configError
  deriving DecidableEq, Repr

/-- The stored fields of STATUS (R15). BUSY is not stored twice: it is 1 exactly while the engine holds a command
(`State.busy`). Bits 31:4 read as 0 and are not stored. -/
structure Status where
  /-- Bit 1, DONE. -/
  done : Bool
  /-- Bit 2, ERR. -/
  err : Bool
  /-- Bit 3, BOTTOMUP. -/
  bottomUp : Bool
  deriving DecidableEq, Repr

/-- ERRCODE, DIAG and the three result registers (R17, R18, R19). -/
structure Report where
  /-- ERRCODE (R17). -/
  errCode : ErrCode
  /-- DIAG bit 0, ALIGN_ASSUMPTION (R18). -/
  alignAssumption : Bool
  /-- DIAG bit 1, SHORT_ROW (R18). -/
  shortRow : Bool
  /-- STREAM_USED (R19). -/
  streamUsed : Word
  /-- ERR_ROW (R19). -/
  errRow : Word
  /-- ERR_OFF (R19). -/
  errOff : Word
  deriving DecidableEq, Repr

/-- What the decoder's next word is: an item of the row, or the pad word after the sentinel (R61, R65). -/
inductive Position where
  | item
  | padding
  deriving DecidableEq, Repr

/-- The working state of a DECODE in progress (R20, R21); `cur` is the block's program counter. -/
structure DecodeWork where
  /-- Stream cursor: the byte offset of the next stream byte (R20). -/
  cur : Nat
  /-- `cur` at the start of the current row. -/
  c0 : Nat
  /-- Stream row index. -/
  k : Nat
  /-- Pixels of the current row already written. -/
  xpos : Nat
  /-- A short row has been seen (R107). -/
  short : Bool
  /-- Where in the row the next word stands. -/
  pos : Position
  deriving DecidableEq, Repr

/-- The engine: idle, holding a command word that no unit has touched yet (`op` of R21, R151), or between two tokens
of a DECODE (R153 lets a model take one step per token). -/
inductive Engine where
  | idle
  | pending (op : Word)
  | decoding (work : DecodeWork)
  deriving DecidableEq, Repr

/-- What takes the next step: a move of the host (R4, R22, R53), a change of `rst` (R190), or the engine. -/
inductive Move where
  /-- The host reads `size` bytes at `offset` of the register window (R22, R24). -/
  | regRead (offset size : Nat)
  /-- The host writes `size` bytes at `offset` of the register window (R22, R24). -/
  | regWrite (offset size : Nat) (v : Word)
  /-- The host, or any agent but the engine, reads a byte of memory (R40, R53). -/
  | memRead (addr : Word)
  /-- The host, or any agent but the engine, writes a byte of memory (R40, R53). -/
  | memWrite (addr : Word) (b : Byte)
  /-- `rst` is asserted (R190). -/
  | rstAssert
  /-- `rst` is released (R190). -/
  | rstRelease
  /-- The engine's one kind of step, command completion (R4, R153). -/
  | complete
  /-- The engine takes its smallest step: one token of a DECODE (R153, last sentence). -/
  | advance
  deriving DecidableEq, Repr

/-- Memory (R25, R40): the listed bytes by rising address; `Memory.wf` in Ops.lean is the canonical form. -/
abbrev Memory := List Host.Cell

/-- The state. `agenda`, `hostData` and `draws` are the model's own fields, notes/assumptions/3.md to 5.md. -/
structure State where
  /-- The operand registers (R11). -/
  operands : Operands
  /-- STATUS but BUSY (R15). -/
  status : Status
  /-- ERRCODE, DIAG, STREAM_USED, ERR_ROW, ERR_OFF (R17 to R19). -/
  report : Report
  /-- The pending command and the decoder's working state (R21). -/
  engine : Engine
  /-- Memory behind the memory port (R25). -/
  mem : Memory
  /-- `rst` is asserted (R190). -/
  rst : Bool
  /-- MODEL'S OWN: the moves to come, first one first. -/
  agenda : List Move
  /-- MODEL'S OWN: the data of the host's last read. -/
  hostData : Word
  /-- MODEL'S OWN: how many times the spec left a write set unspecified so far; picks the free bytes. -/
  draws : Nat
  deriving DecidableEq, Repr

/-- Why the machine stops. -/
inductive Fault where
  /-- Raised by a token fetch or by RUN when the bytes it needs lie at or beyond address 2^32, which does not exist
  (R40, R13). Safe: no step from a state that meets `Safety.Inv` raises it, since R172 is checked first. -/
  | beyondAddressSpace
  deriving DecidableEq, Repr

/-- Why the model answers no state. -/
inductive Refusal where
  /-- Raised by a dispatch arm whose instruction has no meaning yet. Safe: nothing can be proved of it. -/
  | notModelled (mnemonic : String)
  /-- Raised by a register-port move that is not an aligned 32-bit access inside the 64-byte window (R23, R24;
  93_implementation_defined.md U7: refuse). Safe: the spec gives such an access no meaning. -/
  | portAccess
  /-- Raised by a memory move of an agent that is not the engine on the footprint of the running command (R53;
  93_implementation_defined.md U4: refuse). Safe: the spec gives the host no such move. -/
  | footprint
  /-- Raised by a token whose position the decoder is not in: no DECODE runs, or the word stands in the other
  position (R102, R106). Safe: no step leads there, a word outside a DECODE is data. -/
  | tokenOutsideDecode
  deriving DecidableEq, Repr

/-- The step's answer. -/
abbrev Answer := Host.Outcome State Fault Refusal

/-- ERRCODE, DIAG, STREAM_USED, ERR_ROW and ERR_OFF all 0 (R27, R150, R151). -/
def Report.clear : Report :=
  { errCode := .noError, alignAssumption := false, shortRow := false,
    streamUsed := 0#32, errRow := 0#32, errOff := 0#32 }

/-- STATUS all 0 (R27, R150). -/
def Status.clear : Status := { done := false, err := false, bottomUp := false }

/-- The operand registers at 0 (R27). -/
def Operands.zero : Operands :=
  { streamAddr := 0#32, streamLen := 0#32, pixAddr := 0#32, pixStride := 0#32, width := 0#32, height := 0#32 }

/-- The machine right after reset, `rst` released (R27, R190): every register 0, the engine idle, memory with nothing
listed (its contents are not the block's to define, U6), and no move placed. -/
def State.reset : State :=
  { operands := .zero, status := .clear, report := .clear, engine := .idle, mem := [], rst := false,
    agenda := [], hostData := 0#32, draws := 0 }

end Sys2Proof.Machine
end

