-- ==== Sys2Proof/Machine/Flags.lean ====
section
/-! DEFINITION. The words the host reads from the status registers, and the flags BUSY and BOTTOMUP
(10_state.md R15 to R18; 60_exceptions.md R170). -/

namespace Sys2Proof.Machine

/-- A flag at bit `i` of a register. -/
def flagBit (b : Bool) (i : Nat) : Word := if b then 1#32 <<< i else 0#32

/-- ERRCODE's number for a name (R170). -/
def ErrCode.code : ErrCode → Word
  | .noError => 0#32
  | .truncatedInput => 1#32
  | .badMagic => 2#32
  | .sizeInconsistency => 3#32
  | .unsupportedCompression => 4#32
  | .dimensionError => 5#32
  | .insufficientPixelData => 6#32
  | .rowOverrun => 7#32
  | .allocationFailure => 8#32
  | .configError => 9#32

/-- The errors the block raises; codes 1 to 3 are the host software's (R170, R183). -/
def ErrCode.raisedByBlock : ErrCode → Bool
  | .noError => false
  | .truncatedInput => false
  | .badMagic => false
  | .sizeInconsistency => false
  | .unsupportedCompression => true
  | .dimensionError => true
  | .insufficientPixelData => true
  | .rowOverrun => true
  | .allocationFailure => true
  | .configError => true

/-- STATUS.BUSY: a command has started and not completed (R15). -/
def State.busy (s : State) : Bool :=
  match s.engine with
  | .idle => false
  | .pending _ => true
  | .decoding _ => true

/-- The command word held from start to completion (R21, R151). -/
def State.op (s : State) : Option Word :=
  match s.engine with
  | .idle => none
  | .pending op => some op
  | .decoding _ => some 1#32

/-- STATUS as the host reads it (R15). -/
def State.statusWord (s : State) : Word :=
  flagBit s.busy 0 ||| flagBit s.status.done 1 ||| flagBit s.status.err 2 ||| flagBit s.status.bottomUp 3

/-- DIAG as the host reads it (R18). -/
def State.diagWord (s : State) : Word :=
  flagBit s.report.alignAssumption 0 ||| flagBit s.report.shortRow 1

end Sys2Proof.Machine
end

