-- ==== Sys2Proof/Machine/Operands.lean ====
section
/-! DEFINITION. What the operand registers mean: the sign and size of the frame (10_state.md R12), the geometry of
the pixel buffer (20_memory.md R46, R47), the start checks (60_exceptions.md R171, R172), the unpacker's fit test
(40_bitfield_pixel_unpacker.md R83, R84) and the footprint (20_memory.md R48). All on unbounded integers (R13). -/

namespace Sys2Proof.Machine

/-- `ceil_div(a, b)` (00_scope.md section 5). -/
def ceilDiv (a b : Nat) : Nat := (a + b - 1) / b

/-- `roundup4(a)` (00_scope.md section 5). -/
def roundup4 (a : Nat) : Nat := 4 * ceilDiv a 4

/-- The five commands that work on memory. -/
inductive MemOp where
  | decode
  | encode
  | encSize
  | unpack16
  | unpack8
  deriving DecidableEq, Repr

/-- Bits per pixel of a command (R46, R83). -/
def MemOp.bits : MemOp → Nat
  | .decode => 16
  | .encode => 16
  | .encSize => 16
  | .unpack16 => 16
  | .unpack8 => 8

/-- `bpp(op)` (R46). -/
def MemOp.bpp (op : MemOp) : Nat := op.bits / 8

/-- The command word of R66. -/
def MemOp.word : MemOp → Word
  | .decode => 1#32
  | .encode => 2#32
  | .encSize => 3#32
  | .unpack16 => 4#32
  | .unpack8 => 5#32

/-- The unit a command word selects (R154); none for CLEAR and for a reserved word. -/
def memOpOf (op : Word) : Option MemOp :=
  if op = 1#32 then some .decode
  else if op = 2#32 then some .encode
  else if op = 3#32 then some .encSize
  else if op = 4#32 then some .unpack16
  else if op = 5#32 then some .unpack8
  else none

/-- `x[i]` (R11). -/
def Operands.x (o : Operands) (i : Fin 6) : Word :=
  match i with
  | 0 => o.streamAddr
  | 1 => o.streamLen
  | 2 => o.pixAddr
  | 3 => o.pixStride
  | 4 => o.width
  | 5 => o.height

/-- `w = signed(WIDTH)` as a number of columns; the rules use it only after `w >= 1` is checked (R12, R171). -/
def Operands.cols (o : Operands) : Nat := o.width.toInt.toNat

/-- `rows = abs(signed(HEIGHT))`, so that −2^31 gives 2^31 (R12). -/
def Operands.rows (o : Operands) : Nat := o.height.toInt.natAbs

/-- `signed(HEIGHT) > 0` selects BottomUp (R12, R15). -/
def Operands.bottomUp (o : Operands) : Bool := decide (0 < o.height.toInt)

/-- `L`: the bytes of the stream region. -/
def Operands.len (o : Operands) : Nat := o.streamLen.toNat

/-- The first byte of the stream region. -/
def Operands.stream (o : Operands) : Nat := o.streamAddr.toNat

/-- The first byte of buffer row `r` (R47). -/
def Operands.bufferRow (o : Operands) (r : Nat) : Nat := o.pixAddr.toNat + r * o.pixStride.toNat

/-- `r(k)`: the buffer row of stream row `k` (R47). -/
def Operands.rowIndex (o : Operands) (k : Nat) : Nat := if o.bottomUp then o.rows - 1 - k else k

/-- `rowaddr(k)` (R47). -/
def Operands.rowaddr (o : Operands) (k : Nat) : Nat := o.bufferRow (o.rowIndex k)

/-- The row payload `w * bpp(op)` (R46). -/
def Operands.payload (o : Operands) (op : MemOp) : Nat := o.cols * op.bpp

/-- `PEND` of R172. -/
def Operands.pend (o : Operands) (op : MemOp) : Nat := o.bufferRow (o.rows - 1) + o.payload op

/-- `SEND` of R172. -/
def Operands.send (o : Operands) : Nat := o.stream + o.len

/-- R171: the condition of DimensionError. -/
def Operands.badDimensions (o : Operands) : Bool := decide (o.width.toInt ≤ 0) || decide (o.height.toInt = 0)

/-- R172: the condition of ConfigError; ENC_SIZE tests only (a) and (b). -/
def Operands.badConfig (o : Operands) (op : MemOp) : Bool :=
  decide (o.pixStride.toNat < o.payload op)
    || decide (2 ^ 32 < o.pend op)
    || (decide (op ≠ .encSize)
        && (decide (2 ^ 32 < o.send)
            || (decide (0 < o.len) && decide (o.stream < o.pend op) && decide (o.pixAddr.toNat < o.send))))

/-- `u`: the unrounded row length of a fixed-width command (R83). -/
def Operands.unrounded (o : Operands) (op : MemOp) : Nat := ceilDiv (o.cols * op.bits) 8

/-- R84: the row pitch `srcStride` and whether it is the fallback; none where neither length fits. -/
def Operands.fit (o : Operands) (op : MemOp) : Option (Nat × Bool) :=
  if roundup4 (o.unrounded op) * o.rows ≤ o.len then some (roundup4 (o.unrounded op), false)
  else if o.unrounded op * o.rows ≤ o.len then some (o.unrounded op, true)
  else none

/-- The fit test is the fourth start check, for the two unpack commands only (R155). -/
def Operands.badFit (o : Operands) : MemOp → Bool
  | .decode => false
  | .encode => false
  | .encSize => false
  | .unpack16 => (o.fit .unpack16).isNone
  | .unpack8 => (o.fit .unpack8).isNone

/-- The start checks after the opcode, in the order of R155 and R179; the first that fails decides. -/
def Operands.startError (o : Operands) (op : MemOp) : Option ErrCode :=
  if o.badDimensions then some .dimensionError
  else if o.badConfig op then some .configError
  else if o.badFit op then some .insufficientPixelData
  else none

/-- The payload bytes of the pixel buffer (R48): in some row, before the end of its payload. -/
def Operands.inPixels (o : Operands) (op : MemOp) (a : Nat) : Bool :=
  decide (o.pixAddr.toNat ≤ a)
    && decide ((a - o.pixAddr.toNat) / o.pixStride.toNat < o.rows)
    && decide ((a - o.pixAddr.toNat) % o.pixStride.toNat < o.payload op)

/-- The first `n` bytes of the stream region. -/
def Operands.inStream (o : Operands) (n a : Nat) : Bool := decide (o.stream ≤ a) && decide (a < o.stream + n)

/-- The bytes a command may read (R48). A command that fails a start check accesses no memory (R155). -/
def Operands.readSet (o : Operands) (op : MemOp) (a : Nat) : Bool :=
  (o.startError op).isNone &&
    match op with
    | .decode => o.inStream o.len a
    | .encode => o.inPixels .encode a
    | .encSize => o.inPixels .encSize a
    | .unpack16 => o.inStream (o.rows * ((o.fit .unpack16).getD (0, false)).1) a
    | .unpack8 => o.inStream (o.rows * ((o.fit .unpack8).getD (0, false)).1) a

/-- The bytes a command may write (R48). A command that fails a start check accesses no memory (R155). -/
def Operands.writeSet (o : Operands) (op : MemOp) (a : Nat) : Bool :=
  (o.startError op).isNone &&
    match op with
    | .decode => o.inPixels .decode a
    | .encode => o.inStream o.len a
    | .encSize => false
    | .unpack16 => o.inPixels .unpack16 a
    | .unpack8 => o.inPixels .unpack8 a

end Sys2Proof.Machine
end

