-- ==== Sys2Proof/Machine/Ops.lean ====
section
/-! DEFINITION. The named operations over memory and registers, command start, command completion, and entering and
leaving the error state (20_memory.md R42, R43; 44_command_dispatch.md R151, R153; 60_exceptions.md R176, R177, R180,
R181). -/

namespace Sys2Proof.Machine

/-! ### Memory -/

/-- The canonical form: addresses strictly rising and inside the 2^32 bytes of R40, no entry equal to what an unlisted
address reads as. -/
abbrev Memory.wf (m : Memory) : Prop :=
  List.Pairwise (fun c d => c.1 < d.1) m ∧ ∀ c ∈ m, c.2 ≠ Config.unlistedByte ∧ c.1 < 2 ^ 32

/-- `MemRead(a, 1)` (R42). -/
def Memory.read : Memory → Nat → Byte
  | [], _ => Config.unlistedByte
  | (k, v) :: rest, a => if a = k then v else Memory.read rest a

/-- `MemWrite(a, 1, b)` (R43), in canonical form: writing what an unlisted address reads as removes the entry. -/
def Memory.write : Memory → Nat → Byte → Memory
  | [], a, b => if b = Config.unlistedByte then [] else [(a, b)]
  | (k, v) :: rest, a, b =>
    if a < k then (if b = Config.unlistedByte then (k, v) :: rest else (a, b) :: (k, v) :: rest)
    else if a = k then (if b = Config.unlistedByte then rest else (k, b) :: rest)
    else (k, v) :: Memory.write rest a b

/-- `MemRead(a, 2)`: little-endian (R42), two one-byte reads (R45). -/
def Memory.read16 (m : Memory) (a : Nat) : Half := Memory.read m (a + 1) ++ Memory.read m a

/-- `MemWrite(a, 2, v)`: low byte at the lower address (R43), two one-byte writes (R45). -/
def Memory.write16 (m : Memory) (a : Nat) (v : Half) : Memory :=
  Memory.write (Memory.write m a (v.extractLsb' 0 8)) (a + 1) (v.extractLsb' 8 8)

/-- Stores `f x` at each address `x` of `a .. a+n−1`. -/
def Memory.fill (m : Memory) (a : Nat) (f : Nat → Byte) : Nat → Memory
  | 0 => m
  | n + 1 => Memory.write (Memory.fill m a f n) (a + n) (f (a + n))

/-- Fills the first `len` bytes of each of `n` rows `stride` apart. -/
def Memory.fillRows (m : Memory) (base stride len : Nat) (f : Nat → Byte) : Nat → Memory
  | 0 => m
  | n + 1 => Memory.fill (Memory.fillRows m base stride len f n) (base + n * stride) f len

/-- `for i in 0 .. n−1: MemWrite(a + 2*i, 2, v)` (R103). -/
def Memory.writePixels (m : Memory) (a : Nat) (v : Half) : Nat → Memory
  | 0 => m
  | n + 1 => Memory.write16 (Memory.writePixels m a v n) (a + 2 * n) v

/-- R177, R191: every byte of the command's write set takes a freshly drawn free value, every other byte stays. -/
def Memory.unspecify (m : Memory) (op : MemOp) (o : Operands) (draw : Nat) : Memory :=
  if (o.startError op).isSome then m
  else
    match op with
    | .decode => Memory.fillRows m o.pixAddr.toNat o.pixStride.toNat (o.payload .decode) (Config.freeByte draw) o.rows
    | .encode => Memory.fill m o.stream (Config.freeByte draw) o.len
    | .encSize => m
    | .unpack16 =>
      Memory.fillRows m o.pixAddr.toNat o.pixStride.toNat (o.payload .unpack16) (Config.freeByte draw) o.rows
    | .unpack8 =>
      Memory.fillRows m o.pixAddr.toNat o.pixStride.toNat (o.payload .unpack8) (Config.freeByte draw) o.rows

/-! ### Command start and completion -/

/-- The tuple `(mem', err, row, off, used, diag)` of R153, `diag` by its two bits. -/
structure CmdOutcome where
  mem : Memory
  err : ErrCode
  row : Nat
  off : Nat
  used : Nat
  alignAssumption : Bool
  shortRow : Bool
  deriving DecidableEq, Repr

/-- `raise E(row, off)` of a rule that processes rows (R176). -/
structure Raise where
  err : ErrCode
  row : Nat
  off : Nat
  deriving DecidableEq, Repr

/-- Command start (R151): no check is made and no memory is accessed. -/
def State.start (s : State) (v : Word) : State :=
  { s with
    engine := .pending v
    status := { done := false, err := false, bottomUp := s.operands.bottomUp }
    report := .clear }

/-- The report registers after completion (R153). -/
def CmdOutcome.report (c : CmdOutcome) : Report :=
  if c.err = .noError then
    { errCode := .noError, alignAssumption := c.alignAssumption, shortRow := c.shortRow,
      streamUsed := BitVec.ofNat 32 c.used, errRow := 0#32, errOff := 0#32 }
  else
    { errCode := c.err, alignAssumption := false, shortRow := false,
      streamUsed := 0#32, errRow := BitVec.ofNat 32 c.row, errOff := BitVec.ofNat 32 c.off }

/-- Command completion (R153); with an error it is the error entry of R180. -/
def State.finish (s : State) (c : CmdOutcome) : State :=
  { s with
    mem := c.mem
    engine := .idle
    status := { done := true, err := decide (c.err ≠ .noError), bottomUp := s.status.bottomUp }
    report := c.report }

/-! ### Taking an error and leaving it -/

/-- An error of a start check: memory is unchanged, row and offset are 0 (R175, R177). -/
def State.raiseAtStart (s : State) (e : ErrCode) : State :=
  s.finish { mem := s.mem, err := e, row := 0, off := 0, used := 0, alignAssumption := false, shortRow := false }

/-- An error while rows are processed (R174, R176): the write set becomes unspecified (R177). -/
def State.raiseInRows (s : State) (op : MemOp) (r : Raise) : State :=
  { s with draws := s.draws + 1 }.finish
    { mem := Memory.unspecify s.mem op s.operands s.draws, err := r.err, row := r.row, off := r.off, used := 0,
      alignAssumption := false, shortRow := false }

/-- A completion without error. -/
def State.succeed (s : State) (m : Memory) (used : Nat) (alignAssumption shortRow : Bool) : State :=
  s.finish { mem := m, err := .noError, row := 0, off := 0, used := used,
             alignAssumption := alignAssumption, shortRow := shortRow }

/-- The return from the error state that CLEAR makes (R150, R181): status and results as after reset. -/
def State.clearResults (s : State) : State := { s with status := .clear, report := .clear }

/-- The two transitions of a command word (R151, R153): idle, it starts; pending, it completes. Any other command's
word is a write to CMD while BUSY and is ignored (R14). -/
def State.command (s : State) (v : Word) (complete : State → Answer) : Answer :=
  match s.engine with
  | .idle => .next (s.start v)
  | .pending op => if op = v then complete s else .next s
  | .decoding _ => .next s

/-- A memory command's completion: the start checks, then the work of its unit (R155). -/
def State.checked (s : State) (op : MemOp) (work : State → Answer) : Answer :=
  match s.operands.startError op with
  | some e => .next (s.raiseAtStart e)
  | none => work s

/-! ### Reset -/

/-- The memory an abandoned command leaves (R191). -/
def State.abandonedMem (s : State) : Memory :=
  match s.op with
  | none => s.mem
  | some op =>
    match memOpOf op with
    | none => s.mem
    | some c => Memory.unspecify s.mem c s.operands s.draws

/-- `rst` is asserted (R190, R191, R192): every register takes its reset value, a pending command is dropped, memory
stays but for the write set of an abandoned command. -/
def State.assertReset (s : State) : State :=
  { operands := .zero, status := .clear, report := .clear, engine := .idle, mem := s.abandonedMem, rst := true,
    agenda := s.agenda, hostData := s.hostData, draws := if s.busy then s.draws + 1 else s.draws }

end Sys2Proof.Machine
end

