-- ==== Sys2Proof/Machine/Pixel.lean ====
section
/-! DEFINITION. The pure pixel functions: `widen` (40_bitfield_pixel_unpacker.md R81, R82), `narrow`, `meq` and the
token of a run (42_nibble_rle_encoder.md R121 to R123). -/

namespace Sys2Proof.Machine

/-- `widen` for a given blue shift (R81, R82). -/
def widenBy (blueShift : Nat) (t : Half) : Half :=
  (t &&& 0xF000#16) ||| ((t &&& 0x0F00#16) >>> 1) ||| ((t &&& 0x00F0#16) >>> blueShift)

/-- `widen(t)` (R81). -/
def widen (t : Half) : Half := widenBy Config.decBlueShift t

/-- `narrow(p)` (R121). -/
def narrow (p : Half) : Half :=
  (p &&& 0xF000#16) ||| ((p &&& 0x0780#16) <<< 1) ||| ((p &&& 0x001E#16) <<< 3)

/-- `meq(p, q)` (R122). -/
def meq (p q : Half) : Bool := (p &&& Config.qmask) == (q &&& Config.qmask)

/-- `token(s, n) = narrow(s) | n` (R123). -/
def runToken (s : Half) (n : Nat) : Half := narrow s ||| BitVec.ofNat 16 n

end Sys2Proof.Machine
end

