-- ==== Sys2Proof/Machine/Decoder.lean ====
section
/-! DEFINITION. The unit nibble_rle_decoder: the meaning of every token and DECODE (41_nibble_rle_decoder.md R101 to
R111). A token acts on the working state of the DECODE in progress, after its fetch: `cur` is the offset of the byte
after it (10_state.md R20). -/

namespace Sys2Proof.Machine

/-- Runs a token's rule where the decoder is at the token's position; elsewhere the word is no token. -/
def State.atPosition (s : State) (pos : Position) (rule : DecodeWork → Answer) : Answer :=
  match s.engine with
  | .idle => .refused .tokenOutsideDecode
  | .pending _ => .refused .tokenOutsideDecode
  | .decoding d => if d.pos = pos then rule d else .refused .tokenOutsideDecode

/-- The end of a row once its sentinel and its pad are consumed: the short-row rule (R107), then the next row or the
completion of the command (R108). -/
def State.endDecodeRow (s : State) (d : DecodeWork) : State :=
  let short := d.short || decide (d.xpos < s.operands.cols)
  if d.k + 1 < s.operands.rows then
    { s with engine := .decoding { cur := d.cur, c0 := d.cur, k := d.k + 1, xpos := 0, short := short, pos := .item } }
  else s.succeed s.mem d.cur false short

/-- `RUN r, g, b, n` (R103). -/
def execRun (r g b n : BitVec 4) (s : State) : Answer :=
  s.atPosition .item fun d =>
    if d.xpos + n.toNat > s.operands.cols then
      .next (s.raiseInRows .decode { err := .rowOverrun, row := d.k, off := d.cur - 2 })
    else if s.operands.rowaddr d.k + 2 * (d.xpos + n.toNat) > 2 ^ 32 then .fault .beyondAddressSpace
    else .next
      { s with
        mem := Memory.writePixels s.mem (s.operands.rowaddr d.k + 2 * d.xpos) (widen (tokenWord r g b n)) n.toNat
        engine := .decoding { d with xpos := d.xpos + n.toNat } }

/-- `ZRUN r, g, b` (R104): no operation. -/
def execZrun (_r _g _b : BitVec 4) (s : State) : Answer := s.atPosition .item fun _ => .next s

/-- `EOR` (R105): the item loop ends; a pad word is due where the row's byte count is not a multiple of 4 (R106). -/
def execEor (s : State) : Answer :=
  s.atPosition .item fun d =>
    if (d.cur - d.c0) % 4 ≠ 0 then .next { s with engine := .decoding { d with pos := .padding } }
    else .next (s.endDecodeRow d)

/-- `PAD v` (R106): discarded whatever its value; the row then ends. -/
def execPad (_v : Half) (s : State) : Answer := s.atPosition .padding fun d => .next (s.endDecodeRow d)

/-- The meaning of a fetched token (R102). A command word is no token. -/
def execToken (i : Instr) (s : State) : Answer :=
  match i with
  | .clear => .refused .tokenOutsideDecode
  | .decode => .refused .tokenOutsideDecode
  | .encode => .refused .tokenOutsideDecode
  | .encSize => .refused .tokenOutsideDecode
  | .unpack16 => .refused .tokenOutsideDecode
  | .unpack8 => .refused .tokenOutsideDecode
  | .cmdReserved _ _ => .refused .tokenOutsideDecode
  | .eor => execEor s
  | .zrun r g b => execZrun r g b s
  | .run r g b n => execRun r g b n s
  | .pad v => execPad v s

/-- The slot of the decoder's next word (R61, R65). -/
def Position.slot : Position → Slot
  | .item => .item
  | .padding => .padding

/-- The word at the cursor, as its position has it read (R102, R106). -/
def decodeAt (pos : Position) (t : Half) : Instr :=
  match pos with
  | .item => decodeItem t
  | .padding => decodePad t

/-- Fetch and run one word of the stream (R101, R106): the bound test comes first, then `cur` is advanced. -/
def State.tokenStep (s : State) (d : DecodeWork) : Answer :=
  if d.cur + 2 > s.operands.len then
    .next (s.raiseInRows .decode { err := .insufficientPixelData, row := d.k, off := d.cur })
  else if s.operands.stream + d.cur + 2 > 2 ^ 32 then .fault .beyondAddressSpace
  else
    execToken (decodeAt d.pos (Memory.read16 s.mem (s.operands.stream + d.cur)))
      { s with engine := .decoding { d with cur := d.cur + 2 } }

/-- How many words the stream can still give, and one more for the fetch that fails (R109). -/
def Operands.tokenFuel (o : Operands) (d : DecodeWork) : Nat := (o.len - d.cur) / 2 + 1

/-- Words one after another until the command completes; `tokenFuel` of them always suffice (R109). -/
def runTokens : Nat → State → Answer
  | 0, s => .next s
  | n + 1, s =>
    match s.engine with
    | .idle => .next s
    | .pending _ => .next s
    | .decoding d =>
      match s.tokenStep d with
      | .next s1 => runTokens n s1
      | .fault f => .fault f
      | .refused r => .refused r

/-- The working state at the start of a DECODE (R20, R108). -/
def DecodeWork.start : DecodeWork := { cur := 0, c0 := 0, k := 0, xpos := 0, short := false, pos := .item }

/-- The start checks of DECODE, then its working state (R108, R155). -/
def State.openFrame (s : State) : State :=
  match s.operands.startError .decode with
  | some e => s.raiseAtStart e
  | none => { s with engine := .decoding .start }

/-- The rest of a DECODE whose frame is open, to its completion. -/
def State.finishFrame (s : State) : Answer :=
  match s.engine with
  | .idle => .next s
  | .pending _ => .next s
  | .decoding d => runTokens (s.operands.tokenFuel d) s

/-- DECODE (R108): idle, it starts (R151); pending, it opens the frame and runs it to its completion (R153); between
two tokens, it runs the rest. Another command's pending word makes it a write to CMD while BUSY, ignored (R14). -/
def execDecode (s : State) : Answer :=
  match s.engine with
  | .idle => .next (s.start 1#32)
  | .pending op => if op = 1#32 then s.openFrame.finishFrame else .next s
  | .decoding _ => s.finishFrame

end Sys2Proof.Machine
end

