-- ==== Sys2Proof/Machine/Serializer.lean ====
section
/-! DEFINITION. The unit run_length_bitstream_serializer (43_run_length_bitstream_serializer.md R140 to R145). -/

namespace Sys2Proof.Machine

/-- An item of the token channel (R140). -/
inductive Item where
  | run (t : Half)
  | eor
  deriving DecidableEq, Repr

/-- Where a pass writes: the stream's first byte, the capacity `CAP`, and whether it writes at all (R141). -/
structure Sink where
  base : Nat
  cap : Nat
  writing : Bool
  deriving DecidableEq, Repr

/-- What the serializer owns: `cur` and `c0` (R21), and the memory it has written so far. -/
structure Serializer where
  cur : Nat
  c0 : Nat
  mem : Memory
  deriving DecidableEq, Repr

/-- `put16(k, v)` (R141): the capacity test comes first. -/
def put16 (sink : Sink) (k : Nat) (v : Half) (z : Serializer) : Except Raise Serializer :=
  if z.cur + 2 > sink.cap then .error { err := .allocationFailure, row := k, off := z.cur }
  else .ok
    { z with
      mem := if sink.writing then Memory.write16 z.mem (sink.base + z.cur) v else z.mem
      cur := z.cur + 2 }

/-- `endrow(k)` (R142): the sentinel, then two zero bytes where the row is not a multiple of 4. -/
def endrow (sink : Sink) (k : Nat) (z : Serializer) : Except Raise Serializer :=
  match put16 sink k 0#16 z with
  | .error e => .error e
  | .ok z1 => if (z1.cur - z1.c0) % 4 ≠ 0 then put16 sink k 0#16 z1 else .ok z1

/-- The serializer's handling of one channel item of row `k` (R140). -/
def serializeItem (sink : Sink) (k : Nat) (z : Serializer) : Item → Except Raise Serializer
  | .run t => put16 sink k t z
  | .eor => endrow sink k z

/-- The channel is consumed in order (R140). -/
def serializeItems (sink : Sink) (k : Nat) (z : Serializer) : List Item → Except Raise Serializer
  | [] => .ok z
  | i :: rest =>
    match serializeItem sink k z i with
    | .error e => .error e
    | .ok z1 => serializeItems sink k z1 rest

end Sys2Proof.Machine
end

