-- ==== Sys2Proof/Machine/Encoder.lean ====
section
/-! DEFINITION. The unit nibble_rle_encoder: run finding, ENCODE and ENC_SIZE (42_nibble_rle_encoder.md R121 to
R129). -/

namespace Sys2Proof.Machine

/-- The runs of a row whose first pixels form the run `(first, n)` being grown (R124): a pixel joins it while it is
`meq` to its first pixel and the run is shorter than `MAX_RUN`; otherwise it starts the next run. -/
def growRuns (first : Half) (n : Nat) : List Half → List (Half × Nat)
  | [] => [(first, n)]
  | p :: rest =>
    if n < Config.maxRun ∧ meq p first = true then growRuns first (n + 1) rest
    else (first, n) :: growRuns p 1 rest

/-- The runs of a row (R124). -/
def rowRuns : List Half → List (Half × Nat)
  | [] => []
  | p :: rest => growRuns p 1 rest

/-- The run tokens of a row (R123, R125). -/
def rowTokens (pixels : List Half) : List Half := (rowRuns pixels).map fun r => runToken r.1 r.2

/-- The channel items of a row: its runs, then the end-of-row mark (R140). -/
def rowItems (pixels : List Half) : List Item := (rowTokens pixels).map Item.run ++ [Item.eor]

/-- The `w` pixels of a buffer row at address `a` (R56). -/
def rowPixels (m : Memory) (a w : Nat) : List Half := (List.range w).map fun i => Memory.read16 m (a + 2 * i)

/-- The rows of a frame from stream row `k` on, `n` of them, in stream order (R125); `src` is memory at command
start, which every read of a command sees (20_memory.md R52). -/
def encodeRows (src : Memory) (o : Operands) (sink : Sink) (z : Serializer) (k : Nat) : Nat → Except Raise Serializer
  | 0 => .ok z
  | n + 1 =>
    match serializeItems sink k { z with c0 := z.cur } (rowItems (rowPixels src (o.rowaddr k) o.cols)) with
    | .error e => .error e
    | .ok z1 => encodeRows src o sink z1 (k + 1) n

/-- The work of ENCODE and of ENC_SIZE (R125, R126). -/
def State.encodeFrame (s : State) (op : MemOp) (sink : Sink) : Answer :=
  match encodeRows s.mem s.operands sink { cur := 0, c0 := 0, mem := s.mem } 0 s.operands.rows with
  | .error e => .next (s.raiseInRows op e)
  | .ok z => .next (s.succeed z.mem z.cur false false)

/-- ENCODE (R125): the capacity is STREAM_LEN. -/
def execEncode (s : State) : Answer :=
  s.command 2#32 fun s => s.checked .encode fun s =>
    s.encodeFrame .encode { base := s.operands.stream, cap := s.operands.len, writing := true }

/-- ENC_SIZE (R126): nothing is written and the capacity is 0xFFFFFFFF. -/
def execEncSize (s : State) : Answer :=
  s.command 3#32 fun s => s.checked .encSize fun s =>
    s.encodeFrame .encSize { base := s.operands.stream, cap := Config.encSizeCap, writing := false }

end Sys2Proof.Machine
end

