-- ==== Sys2Proof/Machine/System.lean ====
section
/-! DEFINITION. CLEAR (44_command_dispatch.md R150) and the reserved command words (60_exceptions.md R173). -/

namespace Sys2Proof.Machine

/-- CLEAR (R150): at once; ignored while a command runs. -/
def execClear (s : State) : Answer := if s.busy then .next s else .next s.clearResults

/-- A reserved command word (R67, R173): it starts a command that completes with UnsupportedCompression and accesses
no memory. -/
def execCmdReserved (zero : BitVec 28) (op : BitVec 4) (s : State) : Answer :=
  s.command (zero ++ op) fun s => .next (s.raiseAtStart .unsupportedCompression)

end Sys2Proof.Machine
end

