-- ==== Sys2Proof/Machine/Unpacker.lean ====
section
/-! DEFINITION. The unit bitfield_pixel_unpacker: UNPACK16 and UNPACK8 (40_bitfield_pixel_unpacker.md R83 to R89). -/

namespace Sys2Proof.Machine

/-- The copy of one stream row to its buffer row (R86); `src` is memory at command start, which every read of a
command sees (20_memory.md R52). -/
def unpackRow (src : Memory) (o : Operands) (op : MemOp) (srcStride k : Nat) (m : Memory) : Memory :=
  Memory.fill m (o.rowaddr k)
    (fun x => Memory.read src (o.stream + k * srcStride + (x - o.rowaddr k))) (o.unrounded op)

/-- The copy of the first `n` stream rows, in stream order (R86). -/
def unpackRows (src : Memory) (o : Operands) (op : MemOp) (srcStride : Nat) : Nat → Memory
  | 0 => src
  | n + 1 => unpackRow src o op srcStride n (unpackRows src o op srcStride n)

/-- The unpack of a frame, once the pitch is known (R84, R85, R86). -/
def State.unpack (s : State) (op : MemOp) : Answer :=
  match s.operands.fit op with
  | none => .next (s.raiseAtStart .insufficientPixelData)
  | some (srcStride, alignAssumption) =>
    .next (s.succeed (unpackRows s.mem s.operands op srcStride s.operands.rows)
      (s.operands.rows * srcStride) alignAssumption false)

/-- UNPACK16 (R86). -/
def execUnpack16 (s : State) : Answer := s.command 4#32 fun s => s.checked .unpack16 fun s => s.unpack .unpack16

/-- UNPACK8 (R87). -/
def execUnpack8 (s : State) : Answer := s.command 5#32 fun s => s.checked .unpack8 fun s => s.unpack .unpack8

end Sys2Proof.Machine
end

