-- ==== Sys2Proof/Machine/Dispatch.lean ====
section
/-! DEFINITION. One arm for each row of spec/opcode_table.json. A command word's arm is the next of the command's two
transitions (44_command_dispatch.md R151, R153); a token's arm is its rule in a DECODE (41_nibble_rle_decoder.md). -/

namespace Sys2Proof.Machine

def exec (i : Instr) (s : State) : Host.Outcome State Fault Refusal :=
  match i with
  | .clear => Sys2Proof.Machine.execClear s
  | .decode => Sys2Proof.Machine.execDecode s
  | .encode => Sys2Proof.Machine.execEncode s
  | .encSize => Sys2Proof.Machine.execEncSize s
  | .unpack16 => Sys2Proof.Machine.execUnpack16 s
  | .unpack8 => Sys2Proof.Machine.execUnpack8 s
  | .cmdReserved zero op => Sys2Proof.Machine.execCmdReserved zero op s
  | .eor => Sys2Proof.Machine.execEor s
  | .zrun r g b => Sys2Proof.Machine.execZrun r g b s
  | .run r g b n => Sys2Proof.Machine.execRun r g b n s
  | .pad v => Sys2Proof.Machine.execPad v s

end Sys2Proof.Machine
end

