-- ==== Sys2Proof/Machine/Port.lean ====
section
/-! DEFINITION. The register port, the host's memory accesses, `rst`, and the engine's turns: what each move of the
agenda does (10_state.md R10, R22 to R24; 20_memory.md R53; 70_reset_and_hazards.md R190). -/

namespace Sys2Proof.Machine

/-- The thirteen registers of R10. -/
inductive Reg where
  | cmd
  | status
  | errcode
  | diag
  | streamAddr
  | streamLen
  | pixAddr
  | pixStride
  | width
  | height
  | streamUsed
  | errRow
  | errOff
  deriving DecidableEq, Repr

/-- A register's byte offset (R10). -/
def Reg.offset : Reg → Nat
  | .cmd => 0x00
  | .status => 0x04
  | .errcode => 0x08
  | .diag => 0x0C
  | .streamAddr => 0x10
  | .streamLen => 0x14
  | .pixAddr => 0x18
  | .pixStride => 0x1C
  | .width => 0x20
  | .height => 0x24
  | .streamUsed => 0x28
  | .errRow => 0x2C
  | .errOff => 0x30

/-- The register at a byte offset; none at the reserved offsets 0x34, 0x38, 0x3C (R10, R23). -/
def regAt (offset : Nat) : Option Reg :=
  [Reg.cmd, .status, .errcode, .diag, .streamAddr, .streamLen, .pixAddr, .pixStride, .width, .height, .streamUsed,
    .errRow, .errOff][offset / 4]?

/-- An aligned 32-bit access inside the 64-byte window (R10, R24). -/
def portAccessOk (offset size : Nat) : Bool := decide (offset % 4 = 0) && decide (size = 4) && decide (offset < 0x40)

/-- The offset that the platform's host address `addr` selects; none outside `REG_BASE .. REG_BASE+0x3F` (R23). -/
def portOffset (addr : Nat) : Option Nat :=
  if Config.regBase.toNat ≤ addr ∧ addr < Config.regBase.toNat + 0x40 then some (addr - Config.regBase.toNat)
  else none

/-- What a register reads as (R10, R14, R22); the register of a reserved offset reads 0 (R23). -/
def State.readReg (s : State) : Option Reg → Word
  | none => 0#32
  | some .cmd => 0#32
  | some .status => s.statusWord
  | some .errcode => s.report.errCode.code
  | some .diag => s.diagWord
  | some .streamAddr => s.operands.streamAddr
  | some .streamLen => s.operands.streamLen
  | some .pixAddr => s.operands.pixAddr
  | some .pixStride => s.operands.pixStride
  | some .width => s.operands.width
  | some .height => s.operands.height
  | some .streamUsed => s.report.streamUsed
  | some .errRow => s.report.errRow
  | some .errOff => s.report.errOff

/-- A write that reaches a register other than CMD (R22): an operand register stores it, every other one ignores it. -/
def State.writeReg (s : State) (v : Word) : Option Reg → State
  | none => s
  | some .cmd => s
  | some .status => s
  | some .errcode => s
  | some .diag => s
  | some .streamAddr => { s with operands := { s.operands with streamAddr := v } }
  | some .streamLen => { s with operands := { s.operands with streamLen := v } }
  | some .pixAddr => { s with operands := { s.operands with pixAddr := v } }
  | some .pixStride => { s with operands := { s.operands with pixStride := v } }
  | some .width => { s with operands := { s.operands with width := v } }
  | some .height => { s with operands := { s.operands with height := v } }
  | some .streamUsed => s
  | some .errRow => s
  | some .errOff => s

/-- A read of the register port has no side effect (R22); the value goes to the host. -/
def State.portRead (s : State) (offset size : Nat) : Answer :=
  if portAccessOk offset size then .next { s with hostData := s.readReg (regAt offset) } else .refused .portAccess

/-- A write of the register port (R22): ignored while BUSY and while `rst` is asserted (R190); a write to CMD is the
command's start (R14, R150, R151). -/
def State.portWrite (s : State) (offset size : Nat) (v : Word) : Answer :=
  if portAccessOk offset size then
    if s.rst || s.busy then .next s
    else if regAt offset = some .cmd then exec (decodeCommand v) s
    else .next (s.writeReg v (regAt offset))
  else .refused .portAccess

/-- The running command may read address `a` (R48). -/
def State.mayRead (s : State) (a : Nat) : Bool :=
  match s.op with
  | none => false
  | some op => ((memOpOf op).map fun c => s.operands.readSet c a).getD false

/-- The running command may write address `a` (R48). -/
def State.mayWrite (s : State) (a : Nat) : Bool :=
  match s.op with
  | none => false
  | some op => ((memOpOf op).map fun c => s.operands.writeSet c a).getD false

/-- A read of memory by an agent that is not the engine: refused on the running command's write set (R53, U4). -/
def State.hostRead (s : State) (a : Word) : Answer :=
  if s.mayWrite a.toNat then .refused .footprint
  else .next { s with hostData := (Memory.read s.mem a.toNat).zeroExtend 32 }

/-- A write of memory by an agent that is not the engine: refused on the running command's footprint (R53, U4). -/
def State.hostWrite (s : State) (a : Word) (b : Byte) : Answer :=
  if s.mayRead a.toNat || s.mayWrite a.toNat then .refused .footprint
  else .next { s with mem := Memory.write s.mem a.toNat b }

/-- The engine's completion step (R153): enabled while BUSY. -/
def State.engineComplete (s : State) : Answer :=
  match s.engine with
  | .idle => .next s
  | .pending op => exec (decodeCommand op) s
  | .decoding _ => exec .decode s

/-- The engine's smallest step: DECODE opens its frame or runs one token; every other command completes (R153). -/
def State.engineAdvance (s : State) : Answer :=
  match s.engine with
  | .idle => .next s
  | .pending op => if op = 1#32 then .next s.openFrame else exec (decodeCommand op) s
  | .decoding d => s.tokenStep d

/-- One move. -/
def State.move (s : State) : Move → Answer
  | .regRead offset size => s.portRead offset size
  | .regWrite offset size v => s.portWrite offset size v
  | .memRead a => s.hostRead a
  | .memWrite a b => s.hostWrite a b
  | .rstAssert => .next s.assertReset
  | .rstRelease => .next { s with rst := false }
  | .complete => s.engineComplete
  | .advance => s.engineAdvance

/-- R73 `SET reg, v`. -/
def Move.set (r : Reg) (v : Word) : Move := .regWrite r.offset 4 v

/-- R73 `GET reg`. -/
def Move.get (r : Reg) : Move := .regRead r.offset 4

/-- R73 `CMD v`. -/
def Move.cmd (v : Word) : Move := .regWrite 0 4 v

/-- One step's work: the first move of the agenda; with none placed, the engine's completion, which is always enabled
while BUSY (R153, R157); an idle block does nothing (R186). -/
def State.takeTurn (s : State) : Answer :=
  match s.agenda with
  | [] => s.engineComplete
  | m :: rest => { s with agenda := rest }.move m

/-- A small legal DECODE of one row of 15 pixels, used only to give a stream word a decoder that reads it:
stream 0x1000..0x1003, buffer 0x2000..0x201D, TopDown. -/
def fetchOperands : Operands :=
  { streamAddr := 0x1000#32, streamLen := 4#32, pixAddr := 0x2000#32, pixStride := 30#32, width := 15#32,
    height := 0xFFFFFFFF#32 }

/-- A command word is placed where a step takes it: as the write to CMD that comes next, the engine idle. -/
def State.placeCommand (s : State) (v : Word) : State :=
  { s with engine := .idle, rst := false, agenda := .regWrite 0 4 v :: s.agenda }

/-- A stream word is placed where a step fetches it: at the cursor of the DECODE in progress where it has room for a
word, else at the start of the stream of a small legal DECODE; the engine's turn comes next. -/
def State.placeToken (s : State) (t : Half) : State :=
  let fresh : State :=
    { s with
      operands := fetchOperands
      status := .clear
      report := .clear
      engine := .decoding .start
      rst := false
      mem := Memory.write16 s.mem 0x1000 t
      agenda := .advance :: s.agenda }
  match s.engine with
  | .idle => fresh
  | .pending _ => fresh
  | .decoding d =>
    if d.cur + 2 ≤ s.operands.len ∧ s.operands.stream + d.cur + 2 ≤ 2 ^ 32 then
      { s with mem := Memory.write16 s.mem (s.operands.stream + d.cur) t, agenda := .advance :: s.agenda }
    else fresh

end Sys2Proof.Machine
end

