-- ==== Sys2Proof/Machine/Step.lean ====
section
/-! DEFINITION. The step: one turn of whatever the state says moves next; and where a word is placed for it. -/

namespace Sys2Proof.Machine

/-- One step of the machine. -/
def step (s : State) : Host.Outcome State Fault Refusal := s.takeTurn

/-- `s` with the instruction whose bits are `w` stored where the very next step takes it: the 32-bit rows as a write
to CMD, the 16-bit rows in the stream of a DECODE. notes/assumptions/9.md says how programs come to run. -/
def State.withFetchWord (s : State) (nbits w : Nat) : State :=
  if nbits ≤ 16 then s.placeToken (BitVec.ofNat 16 w) else s.placeCommand (BitVec.ofNat 32 w)

end Sys2Proof.Machine
end

