-- ==== Sys2Proof/Safety.lean ====
section
/-! DEFINITION. What a safe run is, and the words the statements use: the invariant of the machine (10_state.md R16,
R20, R21, R27; 70_reset_and_hazards.md R190) and the stream a frame encodes to (30_encoding.md R69). -/

namespace Sys2Proof.Machine

/-- The bounds of the decoder's working state between two tokens (R20, R21, R106). -/
abbrev DecodeWork.ok (o : Operands) (d : DecodeWork) : Prop :=
  o.startError .decode = none ∧ d.k < o.rows ∧ d.xpos ≤ o.cols ∧ d.cur ≤ o.len ∧ d.cur % 2 = 0 ∧ d.c0 % 4 = 0 ∧
    d.c0 ≤ d.cur ∧ (d.pos = .padding → (d.cur - d.c0) % 4 = 2)

/-- What the engine may hold: a command word that is not CLEAR's (R151), or a DECODE within its bounds. -/
def Engine.ok (o : Operands) : Engine → Bool
  | .idle => true
  | .pending op => decide (op ≠ 0#32)
  | .decoding d => decide (d.ok o)

/-- R16, R18, R19 and R170: how STATUS, ERRCODE, DIAG and the result registers go together. -/
abbrev State.statusOk (s : State) : Prop :=
  (s.busy = true → s.status.done = false ∧ s.report = .clear ∧ s.status.bottomUp = s.operands.bottomUp) ∧
    (s.status.err = true → s.status.done = true) ∧
    (s.status.err = true ↔ s.report.errCode ≠ .noError) ∧
    (s.report.errCode ≠ .noError →
      s.report.errCode.raisedByBlock = true ∧ s.report.streamUsed = 0#32 ∧ s.report.alignAssumption = false ∧
        s.report.shortRow = false) ∧
    (s.report.errCode = .noError → s.report.errRow = 0#32 ∧ s.report.errOff = 0#32)

/-- R190: while `rst` is asserted every register is at its reset value. -/
abbrev State.resetOk (s : State) : Prop :=
  s.rst = true → s.engine = .idle ∧ s.operands = .zero ∧ s.status = .clear ∧ s.report = .clear

/-- The invariant of the machine. -/
abbrev Inv (s : State) : Prop :=
  Memory.wf s.mem ∧ s.engine.ok s.operands = true ∧ s.statusOk ∧ s.resetOk

/-- A state from which the next step does not fault. -/
def Safe (s : State) : Prop := ∀ f, step s ≠ .fault f

/-- The words of one encoded row: its run tokens, the sentinel, and a zero pad word where one is due (R69, R142). -/
def rowWords (pixels : List Half) : List Half :=
  rowTokens pixels ++ [0#16] ++ (if ((rowTokens pixels).length + 1) % 2 = 1 then [0#16] else [])

/-- The words of the first `n` stream rows of the pixel buffer (R69): no gap between rows. -/
def rowsWords (o : Operands) (m : Memory) (n : Nat) : List Half :=
  (List.range n).flatMap fun k => rowWords (rowPixels m (o.rowaddr k) o.cols)

/-- A row of a stream as DECODE may meet it (R69): its items and the value its pad word has, where it has one. -/
structure StreamRow where
  items : List Half
  padWord : Half
  deriving DecidableEq, Repr

/-- The words of a stream row (R65, R69). -/
def StreamRow.words (r : StreamRow) : List Half :=
  r.items ++ [0#16] ++ (if (r.items.length + 1) % 2 = 1 then [r.padWord] else [])

/-- The pixels one item writes: its count, taken literally, of its widened colour (R63, R103, R104). -/
def itemPixels (t : Half) : List Half := List.replicate (t &&& 0x000F#16).toNat (widen t)

/-- The pixels a stream row writes, from the row's left end. -/
def StreamRow.pixels (r : StreamRow) : List Half := r.items.flatMap itemPixels

/-- Memory holds these words from address `a` on, each low byte first (R42). -/
def Memory.holds (m : Memory) (a : Nat) (words : List Half) : Prop :=
  ∀ i v, words[i]? = some v → Memory.read16 m (a + 2 * i) = v

/-- Everything as in `s`, but for memory and for a completion with this report (R153). -/
def State.completed (s : State) (m : Memory) (r : Report) : State :=
  { s with
    mem := m
    engine := .idle
    status := { done := true, err := decide (r.errCode ≠ .noError), bottomUp := s.status.bottomUp }
    report := r }

/-- The report of a completion without error (R19). -/
def okReport (used : Nat) (alignAssumption shortRow : Bool) : Report :=
  { errCode := .noError, alignAssumption := alignAssumption, shortRow := shortRow,
    streamUsed := BitVec.ofNat 32 used, errRow := 0#32, errOff := 0#32 }

/-- The report of a completion with an error (R19, R176). -/
def errReport (e : ErrCode) (row off : Nat) : Report :=
  { errCode := e, alignAssumption := false, shortRow := false, streamUsed := 0#32,
    errRow := BitVec.ofNat 32 row, errOff := BitVec.ofNat 32 off }

/-- The length in bytes of the stream of the whole frame. -/
def frameBytes (o : Operands) (m : Memory) : Nat := 2 * (rowsWords o m o.rows).length

end Sys2Proof.Machine
end

