-- ==== Sys2Proof/Certificates/Slice0/Obligations.lean ====
section
/-! DEFINITION. The statements for the provers. Each docstring names the rules of spec/ it formalises; a docstring
that names a log entry rests on the model's choice recorded there. -/

open Sys2Proof Sys2Proof.Machine

/-! ### Encodings -/

/-- R60, R61, R66, R67: decoding the encoding of a well-formed instruction gives it back, in every slot and whatever
bytes follow. -/
def Obligations.DecodingAnEncodedInstructionGivesItBack : Prop :=
  ∀ (i : Instr) (rest : List Byte), i.wellFormed = true → decode i.slot (encode i ++ rest) = .ok (i, rest)

/-- R61, R67: whatever the decoder reads is well formed, belongs to the slot it was read in, and its encoding is
exactly the bytes that were read. -/
def Obligations.DecodedInstructionsEncodeToTheBytesRead : Prop :=
  ∀ (slot : Slot) (bytes : List Byte) (i : Instr) (rest : List Byte), decode slot bytes = .ok (i, rest) →
    i.wellFormed = true ∧ i.slot = slot ∧ encode i ++ rest = bytes

/-- R60, R61: the class and the fields of a token, from its two stored bytes: byte 0 is B,N and byte 1 is R,G. -/
def Obligations.TokenClassAndFieldsFromStoredBytes : Prop :=
  ∀ (r g b n : BitVec 4) (rest : List Byte),
    decode .item ((b ++ n) :: (r ++ g) :: rest) = .ok
      (if n = 0#4 then (if r = 0#4 ∧ g = 0#4 ∧ b = 0#4 then .eor else .zrun r g b) else .run r g b n, rest)

/-- R66, R67: the six legal command words, and every other value is reserved with its two fields. -/
def Obligations.CommandWordsAreDecodedOnAllBits : Prop :=
  decodeCommand 0#32 = .clear ∧ decodeCommand 1#32 = .decode ∧ decodeCommand 2#32 = .encode ∧
  decodeCommand 3#32 = .encSize ∧ decodeCommand 4#32 = .unpack16 ∧ decodeCommand 5#32 = .unpack8 ∧
  ∀ v : Word, 5 < v.toNat →
    ∃ (zero : BitVec 28) (op : BitVec 4), decodeCommand v = .cmdReserved zero op ∧ zero ++ op = v

/-- R60, R61, R65, R66: a few words written out from the spec's encodings. -/
def Obligations.SampleWordsDecodeAsTheSpecSays : Prop :=
  decode .item [0x31#8, 0x12#8] = .ok (.run 1#4 2#4 3#4 1#4, []) ∧
  decode .item [0x30#8, 0x12#8] = .ok (.zrun 1#4 2#4 3#4, []) ∧
  decode .item [0x00#8, 0x00#8] = .ok (.eor, []) ∧
  decode .padding [0x5A#8, 0xA5#8] = .ok (.pad 0xA55A#16, []) ∧
  decode .command [0x01#8, 0x00#8, 0x00#8, 0x00#8] = .ok (.decode, []) ∧
  decode .command [0x11#8, 0x00#8, 0x00#8, 0x00#8] = .ok (.cmdReserved 1#28 1#4, []) ∧
  decode .command [0x01#8, 0x00#8] = .error .truncatedCommand

/-! ### Pixels -/

/-- R81: `widen` bit by bit. -/
def Obligations.WidenPlacesTheNibbles : Prop :=
  ∀ t : Half,
    (widen t).extractLsb' 12 4 = t.extractLsb' 12 4 ∧ (widen t).extractLsb' 11 1 = 0#1 ∧
    (widen t).extractLsb' 7 4 = t.extractLsb' 8 4 ∧ (widen t).extractLsb' 5 2 = 0#2 ∧
    (widen t).extractLsb' 1 4 = t.extractLsb' 4 4 ∧ (widen t).extractLsb' 0 1 = 0#1

/-- R121: `narrow` bit by bit, and `widen` undoes it up to the mask, whatever count is or-ed in. -/
def Obligations.WidenUndoesNarrowUpToTheMask : Prop :=
  (∀ p : Half,
    (narrow p).extractLsb' 12 4 = p.extractLsb' 12 4 ∧ (narrow p).extractLsb' 8 4 = p.extractLsb' 7 4 ∧
    (narrow p).extractLsb' 4 4 = p.extractLsb' 1 4 ∧ (narrow p).extractLsb' 0 4 = 0#4 ∧
    narrow p = narrow (p &&& 0xF79E#16)) ∧
  ∀ (p : Half) (n : Nat), n ≤ 15 → widen (narrow p ||| BitVec.ofNat 16 n) = p &&& 0xF79E#16

/-- R122: `meq` is equality under the mask, it is equality of what `narrow` keeps, and it is an equivalence. -/
def Obligations.MaskedEqualityIsEqualityOfNarrow : Prop :=
  (∀ p q : Half, (meq p q = true ↔ p &&& 0xF79E#16 = q &&& 0xF79E#16) ∧ (meq p q = true ↔ narrow p = narrow q)) ∧
  (∀ p : Half, meq p p = true) ∧ (∀ p q : Half, meq p q = true → meq q p = true) ∧
  ∀ p q r : Half, meq p q = true → meq q r = true → meq p r = true

/-! ### Commands: start, CLEAR, start checks -/

/-- R151: the start of every command word but CLEAR's. -/
def Obligations.CommandStartSetsBusyAndClearsResults : Prop :=
  ∀ (s : State) (v : Word), s.engine = .idle → v ≠ 0#32 →
    exec (decodeCommand v) s = .next
      { s with
        engine := .pending v
        status := { done := false, err := false, bottomUp := decide (0 < s.operands.height.toInt) }
        report := { errCode := .noError, alignAssumption := false, shortRow := false, streamUsed := 0#32,
                    errRow := 0#32, errOff := 0#32 } }

/-- R150: CLEAR, idle and while a command runs. -/
def Obligations.ClearResetsStatusAndResultsOnly : Prop :=
  ∀ s : State,
    (s.engine = .idle → exec .clear s = .next
      { s with
        status := { done := false, err := false, bottomUp := false }
        report := { errCode := .noError, alignAssumption := false, shortRow := false, streamUsed := 0#32,
                    errRow := 0#32, errOff := 0#32 } }) ∧
    (s.engine ≠ .idle → exec .clear s = .next s)

/-- R158: what a command word does from a state does not depend on the results of the command before it. -/
def Obligations.CommandsAreIndependentOfEarlierResults : Prop :=
  ∀ (s : State) (v : Word) (t : State), s.engine = .idle → v ≠ 0#32 → exec .clear s = .next t →
    exec (decodeCommand v) t = exec (decodeCommand v) s

/-- R173, R154: the completion of a reserved command word. -/
def Obligations.ReservedCommandCompletesUnsupported : Prop :=
  ∀ (s : State) (v : Word), s.engine = .pending v → 5 < v.toNat →
    exec (decodeCommand v) s = .next (s.completed s.mem (errReport .unsupportedCompression 0 0))

/-- R171: the five memory commands on bad dimensions. -/
def Obligations.BadDimensionsCompleteWithDimensionError : Prop :=
  ∀ (s : State) (c : MemOp), s.engine = .pending c.word →
    (s.operands.width.toInt ≤ 0 ∨ s.operands.height.toInt = 0) →
    exec (decodeCommand c.word) s = .next (s.completed s.mem (errReport .dimensionError 0 0))

/-- R172: the five memory commands on an impossible or overlapping layout, the four conditions written out. -/
def Obligations.BadLayoutCompletesWithConfigError : Prop :=
  ∀ (s : State) (c : MemOp), s.engine = .pending c.word →
    1 ≤ s.operands.width.toInt → s.operands.height.toInt ≠ 0 →
    (let o := s.operands
     let row := o.width.toInt.toNat * (if c = .unpack8 then 1 else 2)
     let pend := o.pixAddr.toNat + (o.height.toInt.natAbs - 1) * o.pixStride.toNat + row
     let send := o.streamAddr.toNat + o.streamLen.toNat
     o.pixStride.toNat < row ∨ 2 ^ 32 < pend ∨
      (c ≠ .encSize ∧ (2 ^ 32 < send ∨
        (0 < o.streamLen.toNat ∧ o.streamAddr.toNat < pend ∧ o.pixAddr.toNat < send)))) →
    exec (decodeCommand c.word) s = .next (s.completed s.mem (errReport .configError 0 0))

/-- R14, R22: while a command is pending, the word of any other command is a write to CMD that changes nothing. -/
def Obligations.OtherCommandWordsAreIgnoredWhilePending : Prop :=
  ∀ (s : State) (v w : Word), s.engine = .pending v → w ≠ v → exec (decodeCommand w) s = .next s

/-! ### The unpacker -/

/-- R84, R174: neither row length fits. -/
def Obligations.UnpackOfTooShortStreamIsInsufficient : Prop :=
  ∀ (s : State) (c : MemOp), (c = .unpack16 ∨ c = .unpack8) → s.engine = .pending c.word →
    s.operands.badDimensions = false → s.operands.badConfig c = false →
    s.operands.len < s.operands.cols * c.bpp * s.operands.rows →
    exec (decodeCommand c.word) s = .next (s.completed s.mem (errReport .insufficientPixelData 0 0))

/-- R84 to R88: a successful UNPACK16 or UNPACK8: every payload byte of every row arrives unchanged, no other byte of
memory changes, and the pitch, the diagnostic and the length used are those of the fit test. -/
def Obligations.UnpackCopiesEveryRowUnchanged : Prop :=
  ∀ (s : State) (c : MemOp), (c = .unpack16 ∨ c = .unpack8) → Memory.wf s.mem → s.engine = .pending c.word →
    s.operands.badDimensions = false → s.operands.badConfig c = false →
    s.operands.cols * c.bpp * s.operands.rows ≤ s.operands.len →
    let o := s.operands
    let u := o.cols * c.bpp
    let padded := 4 * ((u + 3) / 4)
    let srcStride := if padded * o.rows ≤ o.len then padded else u
    ∃ m, exec (decodeCommand c.word) s =
        .next (s.completed m (okReport (o.rows * srcStride) (decide (o.len < padded * o.rows)) false)) ∧
      (∀ k j, k < o.rows → j < u →
        Memory.read m (o.rowaddr k + j) = Memory.read s.mem (o.stream + k * srcStride + j)) ∧
      ∀ a, (∀ k j, k < o.rows → j < u → a ≠ o.rowaddr k + j) → Memory.read m a = Memory.read s.mem a

/-! ### Runs and rows of the encoder -/

/-- R124, R128: the runs of a row have counts 1 to 15, spell out the row under the mask, and two neighbours differ
under the mask unless the first has count 15. -/
def Obligations.RunsPartitionTheRow : Prop :=
  ∀ pixels : List Half,
    (∀ r ∈ rowRuns pixels, 1 ≤ r.2 ∧ r.2 ≤ 15) ∧
    ((rowRuns pixels).flatMap fun r => List.replicate r.2 (r.1 &&& 0xF79E#16)) = pixels.map (· &&& 0xF79E#16) ∧
    ∀ i p q, (rowRuns pixels)[i]? = some p → (rowRuns pixels)[i + 1]? = some q → p.2 = 15 ∨ meq p.1 q.1 = false

/-- R123, R128: what DECODE makes of the tokens of a row is the row under the mask; every token is a RUN. -/
def Obligations.RowTokensDecodeToTheMaskedRow : Prop :=
  ∀ pixels : List Half,
    (rowTokens pixels).flatMap itemPixels = pixels.map (· &&& 0xF79E#16) ∧
    ∀ t ∈ rowTokens pixels, ∃ r g b n, n ≠ 0#4 ∧ decodeItem t = .run r g b n

/-- R128: the encoder reads pixels under the mask only. -/
def Obligations.EncoderSeesPixelsUnderTheMaskOnly : Prop :=
  ∀ p q : List Half, p.map (· &&& 0xF79E#16) = q.map (· &&& 0xF79E#16) → rowTokens p = rowTokens q

/-- R127, R144: how long an encoded row is, by its runs, and how many runs it has. -/
def Obligations.EncodedRowSizeBounds : Prop :=
  ∀ pixels : List Half,
    2 * (rowWords pixels).length = roundup4 (2 * ((rowRuns pixels).length + 1)) ∧
    ceilDiv pixels.length 15 ≤ (rowRuns pixels).length ∧ (rowRuns pixels).length ≤ pixels.length

/-- R141: `put16`. -/
def Obligations.PutWordTestsCapacityThenWrites : Prop :=
  ∀ (sink : Sink) (k : Nat) (v : Half) (z : Serializer), Memory.wf z.mem → sink.base + sink.cap ≤ 2 ^ 32 →
    (sink.cap < z.cur + 2 → put16 sink k v z = .error { err := .allocationFailure, row := k, off := z.cur }) ∧
    (z.cur + 2 ≤ sink.cap → ∃ m, put16 sink k v z = .ok { cur := z.cur + 2, c0 := z.c0, mem := m } ∧
      (sink.writing = false → m = z.mem) ∧
      (sink.writing = true →
        Memory.read m (sink.base + z.cur) = v.extractLsb' 0 8 ∧
        Memory.read m (sink.base + z.cur + 1) = v.extractLsb' 8 8 ∧
        ∀ a, a ≠ sink.base + z.cur → a ≠ sink.base + z.cur + 1 → Memory.read m a = Memory.read z.mem a))

/-! ### ENCODE and ENC_SIZE -/

/-- R125, R143: a successful ENCODE: the stream holds the words of the frame, no other byte of memory changes. -/
def Obligations.EncodeWritesTheStreamOfTheFrame : Prop :=
  ∀ s : State, Memory.wf s.mem → s.engine = .pending 2#32 → s.operands.startError .encode = none →
    frameBytes s.operands s.mem ≤ s.operands.len →
    ∃ m, exec .encode s = .next (s.completed m (okReport (frameBytes s.operands s.mem) false false)) ∧
      Memory.holds m s.operands.stream (rowsWords s.operands s.mem s.operands.rows) ∧
      ∀ a, (a < s.operands.stream ∨ s.operands.stream + frameBytes s.operands s.mem ≤ a) →
        Memory.read m a = Memory.read s.mem a

/-- R125, R175, R177: an ENCODE whose stream does not fit: AllocationFailure at the first word that does not fit, in
the row it belongs to; no byte outside the stream region changes. -/
def Obligations.EncodeWithoutRoomIsAllocationFailure : Prop :=
  ∀ s : State, Memory.wf s.mem → s.engine = .pending 2#32 → s.operands.startError .encode = none →
    s.operands.len < frameBytes s.operands s.mem →
    ∃ (k : Nat) (m : Memory), k < s.operands.rows ∧
      2 * (rowsWords s.operands s.mem k).length ≤ s.operands.len ∧
      s.operands.len < 2 * (rowsWords s.operands s.mem (k + 1)).length ∧
      exec .encode s = .next
        ({ s with draws := s.draws + 1 }.completed m (errReport .allocationFailure k (2 * (s.operands.len / 2)))) ∧
      ∀ a, (a < s.operands.stream ∨ s.operands.stream + s.operands.len ≤ a) →
        Memory.read m a = Memory.read s.mem a

/-- R126, R175: ENC_SIZE changes no memory; it reports the length ENCODE produces, or, where the length cannot be
reported in 32 bits, AllocationFailure in the stream row whose words pass the capacity, at the last word boundary
inside it. That error counts a free draw (notes/assumptions/5.md). -/
def Obligations.EncSizeReportsTheLengthOnly : Prop :=
  ∀ s : State, s.engine = .pending 3#32 → s.operands.startError .encSize = none →
    (frameBytes s.operands s.mem ≤ 0xFFFFFFFF →
      exec .encSize s = .next (s.completed s.mem (okReport (frameBytes s.operands s.mem) false false))) ∧
    (0xFFFFFFFF < frameBytes s.operands s.mem →
      ∃ k, k < s.operands.rows ∧
        2 * (rowsWords s.operands s.mem k).length ≤ 0xFFFFFFFF ∧
        0xFFFFFFFF < 2 * (rowsWords s.operands s.mem (k + 1)).length ∧
        exec .encSize s = .next
          ({ s with draws := s.draws + 1 }.completed s.mem (errReport .allocationFailure k 0xFFFFFFFE)))

/-- R127: with room for the worst case ENCODE never fails. -/
def Obligations.EncodeWithWorstCaseRoomSucceeds : Prop :=
  ∀ s : State, s.engine = .pending 2#32 → s.operands.startError .encode = none →
    s.operands.rows * roundup4 (2 * s.operands.cols + 2) ≤ s.operands.len →
    ∃ t, exec .encode s = .next t ∧ t.report.errCode = .noError ∧ t.report.streamUsed.toNat % 4 = 0

/-! ### Tokens -/

/-- R103, R175, R177: RUN: the run that passes the end of its row, and the run that fits. The overrun counts a free
draw (notes/assumptions/5.md: the model's own count). -/
def Obligations.RunWritesItsPixelsOrOverruns : Prop :=
  ∀ (s : State) (d : DecodeWork) (r g b n : BitVec 4), Memory.wf s.mem → s.engine = .decoding d → d.pos = .item →
    (s.operands.cols < d.xpos + n.toNat →
      ∃ m, exec (.run r g b n) s = .next
          ({ s with draws := s.draws + 1 }.completed m (errReport .rowOverrun d.k (d.cur - 2))) ∧
        ∀ a, s.operands.writeSet .decode a = false → Memory.read m a = Memory.read s.mem a) ∧
    (d.xpos + n.toNat ≤ s.operands.cols → s.operands.rowaddr d.k + 2 * (d.xpos + n.toNat) ≤ 2 ^ 32 →
      ∃ m, exec (.run r g b n) s = .next
          { s with mem := m, engine := .decoding { d with xpos := d.xpos + n.toNat } } ∧
        (∀ i, i < n.toNat →
          Memory.read16 m (s.operands.rowaddr d.k + 2 * (d.xpos + i)) = widen (r ++ g ++ b ++ n)) ∧
        ∀ a, (a < s.operands.rowaddr d.k + 2 * d.xpos ∨ s.operands.rowaddr d.k + 2 * (d.xpos + n.toNat) ≤ a) →
          Memory.read m a = Memory.read s.mem a)

/-- R104: ZRUN: no operation, on every token with a zero count that is not the sentinel, a full row included. -/
def Obligations.ZeroCountTokenIsNoOperation : Prop :=
  ∀ (s : State) (d : DecodeWork) (t : Half), s.engine = .decoding d → d.pos = .item → t ≠ 0#16 →
    t &&& 0x000F#16 = 0#16 → exec (decodeItem t) s = .next s

/-- R105, R106, R107, R108: EOR: the pad position where a pad word is due, else the next row, else the completion. -/
def Obligations.SentinelEndsTheRow : Prop :=
  ∀ (s : State) (d : DecodeWork), s.engine = .decoding d → d.pos = .item →
    ((d.cur - d.c0) % 4 ≠ 0 → exec .eor s = .next { s with engine := .decoding { d with pos := .padding } }) ∧
    ((d.cur - d.c0) % 4 = 0 → d.k + 1 < s.operands.rows →
      exec .eor s = .next
        { s with
          engine := .decoding
            { cur := d.cur, c0 := d.cur, k := d.k + 1, xpos := 0,
              short := d.short || decide (d.xpos < s.operands.cols), pos := .item } }) ∧
    ((d.cur - d.c0) % 4 = 0 → s.operands.rows ≤ d.k + 1 →
      exec .eor s = .next
        (s.completed s.mem (okReport d.cur false (d.short || decide (d.xpos < s.operands.cols)))))

/-- R106, R107, R108: PAD: discarded whatever its value; then the next row or the completion. -/
def Obligations.PadWordIsDiscardedAndEndsTheRow : Prop :=
  ∀ (s : State) (d : DecodeWork) (v : Half), s.engine = .decoding d → d.pos = .padding →
    (d.k + 1 < s.operands.rows →
      exec (.pad v) s = .next
        { s with
          engine := .decoding
            { cur := d.cur, c0 := d.cur, k := d.k + 1, xpos := 0,
              short := d.short || decide (d.xpos < s.operands.cols), pos := .item } }) ∧
    (s.operands.rows ≤ d.k + 1 →
      exec (.pad v) s = .next
        (s.completed s.mem (okReport d.cur false (d.short || decide (d.xpos < s.operands.cols)))))

/-- notes/assumptions/8.md: the model's choice: a stream word has no meaning where no DECODE is at its position. -/
def Obligations.TokensOutsideDecodeAreRefused : Prop :=
  ∀ (s : State) (i : Instr), i.slot ≠ .command →
    (∀ d, s.engine = .decoding d → d.pos.slot ≠ i.slot) → exec i s = .refused .tokenOutsideDecode

/-! ### A step runs the decoded instruction -/

/-- R14, R22: a write of a word to CMD while idle: the step is the decoded command's `exec` after the move is taken
off the agenda (notes/assumptions/3.md: the agenda is the model's own). -/
def Obligations.StepRunsTheWrittenCommand : Prop :=
  ∀ (s : State) (v : Word) (moves : List Move), s.engine = .idle → s.rst = false →
    s.agenda = .regWrite 0 4 v :: moves → step s = exec (decodeCommand v) { s with agenda := moves }

/-- R153, R154: every move that is a completion: with no move placed and on the move `complete` the step of a running
command is its `exec`, and so it is on the move `advance` for a pending command that is not DECODE (what `advance`
does to a DECODE is said by OneMoveThenTheRestIsTheWholeDecode). The moves are the model's own
(notes/assumptions/3.md, 7.md). -/
def Obligations.StepCompletesTheRunningCommand : Prop :=
  ∀ (s : State) (moves : List Move),
    (∀ v : Word, s.engine = .pending v →
      (s.agenda = [] → step s = exec (decodeCommand v) s) ∧
      (s.agenda = .complete :: moves → step s = exec (decodeCommand v) { s with agenda := moves }) ∧
      (v ≠ 1#32 → s.agenda = .advance :: moves → step s = exec (decodeCommand v) { s with agenda := moves })) ∧
    ∀ d : DecodeWork, s.engine = .decoding d →
      (s.agenda = [] → step s = exec .decode s) ∧
      (s.agenda = .complete :: moves → step s = exec .decode { s with agenda := moves })

/-- R101, R102, R106: the engine's smallest step fetches the two bytes at the cursor, moves the cursor past them, and
is `exec` of the instruction the decoder reads from them at the decoder's position. -/
def Obligations.StepFetchesAndRunsOneStreamWord : Prop :=
  ∀ (s : State) (d : DecodeWork) (moves : List Move) (i : Instr), s.engine = .decoding d →
    s.agenda = .advance :: moves → d.cur + 2 ≤ s.operands.len → s.operands.stream + d.cur + 2 ≤ 2 ^ 32 →
    decode d.pos.slot [Memory.read s.mem (s.operands.stream + d.cur),
      Memory.read s.mem (s.operands.stream + d.cur + 1)] = .ok (i, []) →
    step s = exec i { s with agenda := moves, engine := .decoding { d with cur := d.cur + 2 } }

/-- R101, R106, R175: a fetch that needs stream bytes at or beyond STREAM_LEN, for an item and for a due pad word. -/
def Obligations.ExhaustedStreamIsInsufficientPixelData : Prop :=
  ∀ (s : State) (d : DecodeWork) (moves : List Move), Memory.wf s.mem → s.engine = .decoding d →
    s.agenda = .advance :: moves → s.operands.len < d.cur + 2 →
    ∃ m, step s = .next ({ s with agenda := moves, draws := s.draws + 1 }.completed m
        (errReport .insufficientPixelData d.k d.cur)) ∧
      ∀ a, s.operands.writeSet .decode a = false → Memory.read m a = Memory.read s.mem a

/-- R108, R153 (last sentence), R155: the grain of a DECODE does not matter. The first move of a pending DECODE makes
the start checks: where one fails the command is over with that error, as the whole would be; where they pass, the
cursor, the row and the pixels written start at 0 and the rest ends as the whole would have ended. After one word of a
DECODE in progress the rest ends as the whole would have ended. The grain is the model's choice
(notes/assumptions/7.md). -/
def Obligations.OneMoveThenTheRestIsTheWholeDecode : Prop :=
  (∀ (s : State) (moves : List Move), s.engine = .pending 1#32 → s.agenda = .advance :: moves →
    (∀ e, s.operands.startError .decode = some e →
      step s = .next ({ s with agenda := moves }.completed s.mem (errReport e 0 0)) ∧
      exec .decode { s with agenda := moves } =
        .next ({ s with agenda := moves }.completed s.mem (errReport e 0 0))) ∧
    (s.operands.startError .decode = none →
      ∃ t, step s = .next t ∧
        t = { s with
          agenda := moves
          engine := .decoding { cur := 0, c0 := 0, k := 0, xpos := 0, short := false, pos := .item } } ∧
        exec .decode t = exec .decode { s with agenda := moves })) ∧
  ∀ (s t : State) (d : DecodeWork) (moves : List Move), s.engine = .decoding d → s.agenda = .advance :: moves →
    step s = .next t →
    (t.busy = true → exec .decode t = exec .decode { s with agenda := moves }) ∧
    (t.busy = false → exec .decode { s with agenda := moves } = .next t)

/-! ### DECODE -/

/-- R108, R69: a DECODE of a stream of well-formed rows that fit: the pixels of each row, in place; no other byte of
memory changes; the bytes used, and whether a row was short. -/
def Obligations.DecodeWritesThePixelsOfTheStream : Prop :=
  ∀ (s : State) (rows : List StreamRow), Memory.wf s.mem → s.engine = .pending 1#32 →
    s.operands.startError .decode = none → rows.length = s.operands.rows →
    (∀ r ∈ rows, (∀ t ∈ r.items, t ≠ 0#16) ∧ r.pixels.length ≤ s.operands.cols) →
    2 * (rows.flatMap StreamRow.words).length ≤ s.operands.len →
    Memory.holds s.mem s.operands.stream (rows.flatMap StreamRow.words) →
    ∃ m, exec .decode s = .next (s.completed m
        (okReport (2 * (rows.flatMap StreamRow.words).length) false
          (rows.any fun r => decide (r.pixels.length < s.operands.cols)))) ∧
      (∀ k r i p, rows[k]? = some r → r.pixels[i]? = some p →
        Memory.read16 m (s.operands.rowaddr k + 2 * i) = p) ∧
      ∀ a, (∀ k r i, rows[k]? = some r → i < 2 * r.pixels.length → a ≠ s.operands.rowaddr k + i) →
        Memory.read m a = Memory.read s.mem a

/-- R110: DECODE of what ENCODE produced: no error, DIAG 0, exactly the bytes produced, and every pixel under the
mask. -/
def Obligations.DecodeInvertsEncodeUpToTheMask : Prop :=
  ∀ s t u : State, Memory.wf s.mem → s.engine = .pending 2#32 → exec .encode s = .next t →
    t.report.errCode = .noError →
    Memory.wf u.mem → u.engine = .pending 1#32 → u.operands.startError .decode = none →
    u.operands.width = s.operands.width → u.operands.height = s.operands.height →
    t.report.streamUsed.toNat ≤ u.operands.len →
    (∀ i, i < t.report.streamUsed.toNat →
      Memory.read u.mem (u.operands.stream + i) = Memory.read t.mem (s.operands.stream + i)) →
    ∃ m, exec .decode u = .next (u.completed m (okReport t.report.streamUsed.toNat false false)) ∧
      (∀ k i, k < u.operands.rows → i < u.operands.cols →
        Memory.read16 m (u.operands.rowaddr k + 2 * i) =
          Memory.read16 s.mem (s.operands.rowaddr k + 2 * i) &&& 0xF79E#16) ∧
      ∀ a, (∀ k i, k < u.operands.rows → i < 2 * u.operands.cols → a ≠ u.operands.rowaddr k + i) →
        Memory.read m a = Memory.read u.mem a

/-- R109, R111, R153: whatever the operands and the stream, a pending DECODE completes; no byte outside the row
payloads changes and the operand registers stay. -/
def Obligations.EveryDecodeCompletesInsideItsRows : Prop :=
  ∀ s : State, Memory.wf s.mem → s.engine = .pending 1#32 →
    ∃ t, exec .decode s = .next t ∧ t.engine = .idle ∧ t.status.done = true ∧ t.operands = s.operands ∧
      t.status.bottomUp = s.status.bottomUp ∧ t.rst = s.rst ∧ t.agenda = s.agenda ∧ t.hostData = s.hostData ∧
      ∀ a, (∀ k j, k < s.operands.rows → j < 2 * s.operands.cols → a ≠ s.operands.rowaddr k + j) →
        Memory.read t.mem a = Memory.read s.mem a

/-! ### The register port and the host -/

/-- R22, R13: a write of an operand register while idle stores all 32 bits there and nowhere else. -/
def Obligations.OperandWritesStoreAllBits : Prop :=
  ∀ (s : State) (i : Fin 6) (v : Word) (moves : List Move), s.engine = .idle → s.rst = false →
    s.agenda = .regWrite (0x10 + 4 * i.val) 4 v :: moves →
    ∃ o, step s = .next { s with agenda := moves, operands := o } ∧ o.x i = v ∧
      ∀ j, j ≠ i → o.x j = s.operands.x j

/-- R14, R22, R190: an aligned 32-bit write while BUSY or while `rst` is asserted, and one to a read-only or reserved
offset at any time, changes nothing. -/
def Obligations.IgnoredRegisterWritesChangeNothing : Prop :=
  ∀ (s : State) (q : Nat) (v : Word) (moves : List Move), q < 16 → s.agenda = .regWrite (4 * q) 4 v :: moves →
    (s.engine ≠ .idle ∨ s.rst = true ∨ q = 1 ∨ q = 2 ∨ q = 3 ∨ 10 ≤ q) →
    step s = .next { s with agenda := moves }

/-- R10, R14, R15, R17, R18, R19, R22, R23: what a read of each offset gives the host, and that it changes nothing
(notes/assumptions/4.md: where the value goes is the model's own). -/
def Obligations.RegisterReadsGiveTheRegisterAndChangeNothing : Prop :=
  ∀ (s : State) (q : Nat) (moves : List Move), q < 16 → s.agenda = .regRead (4 * q) 4 :: moves →
    ∃ v : Word, step s = .next { s with agenda := moves, hostData := v } ∧
      (q = 0 → v = 0#32) ∧
      (q = 1 → ∀ i, v.getLsbD i =
        ((i == 0 && s.busy) || (i == 1 && s.status.done) || (i == 2 && s.status.err) ||
          (i == 3 && s.status.bottomUp))) ∧
      (q = 2 → v = s.report.errCode.code) ∧
      (q = 3 → ∀ i, v.getLsbD i = ((i == 0 && s.report.alignAssumption) || (i == 1 && s.report.shortRow))) ∧
      (∀ i : Fin 6, q = 4 + i.val → v = s.operands.x i) ∧
      (q = 10 → v = s.report.streamUsed) ∧ (q = 11 → v = s.report.errRow) ∧ (q = 12 → v = s.report.errOff) ∧
      (13 ≤ q → v = 0#32)

/-- R23, R24, U7: every other access of the register port is refused. -/
def Obligations.UnalignedOrOutsidePortAccessIsRefused : Prop :=
  ∀ (s : State) (offset size : Nat) (v : Word) (moves : List Move),
    (offset % 4 ≠ 0 ∨ size ≠ 4 ∨ 0x40 ≤ offset) →
    (s.agenda = .regRead offset size :: moves → step s = .refused .portAccess) ∧
    (s.agenda = .regWrite offset size v :: moves → step s = .refused .portAccess)

/-- R40, R53, U4: the host's memory accesses: outside the running command's footprint they are plain reads and writes
of one byte; on it they are refused (notes/assumptions/13.md). A command that fails a start check has no footprint,
which is the model's reading (notes/assumptions/6.md). -/
def Obligations.HostMemoryAccessKeepsOffTheFootprint : Prop :=
  ∀ (s : State) (a : Word) (b : Byte) (moves : List Move), Memory.wf s.mem →
    (s.agenda = .memWrite a b :: moves →
      (s.mayRead a.toNat = true ∨ s.mayWrite a.toNat = true → step s = .refused .footprint) ∧
      (s.mayRead a.toNat = false → s.mayWrite a.toNat = false →
        ∃ m, step s = .next { s with agenda := moves, mem := m } ∧
          ∀ x, Memory.read m x = if x = a.toNat then b else Memory.read s.mem x)) ∧
    (s.agenda = .memRead a :: moves →
      (s.mayWrite a.toNat = true → step s = .refused .footprint) ∧
      (s.mayWrite a.toNat = false →
        step s = .next { s with agenda := moves, hostData := (Memory.read s.mem a.toNat).zeroExtend 32 }))

/-- R48, R53: which bytes a running command may read and may write, once its start checks pass: each of the five
memory commands in its own words, with the row pitch of an unpack that of its fit test (R84, R85). An idle block
keeps the host from no byte. -/
def Obligations.FootprintOfEveryCommand : Prop :=
  ∀ (s : State) (a : Nat),
    let o := s.operands
    let inStream := fun n => o.stream ≤ a ∧ a < o.stream + n
    let inRows := fun u => ∃ k j, k < o.rows ∧ j < u ∧ a = o.rowaddr k + j
    let pitch := fun u => if 4 * ((u + 3) / 4) * o.rows ≤ o.len then 4 * ((u + 3) / 4) else u
    (s.op = some 1#32 → o.startError .decode = none →
      (s.mayRead a = true ↔ inStream o.len) ∧ (s.mayWrite a = true ↔ inRows (2 * o.cols))) ∧
    (s.op = some 2#32 → o.startError .encode = none →
      (s.mayRead a = true ↔ inRows (2 * o.cols)) ∧ (s.mayWrite a = true ↔ inStream o.len)) ∧
    (s.op = some 3#32 → o.startError .encSize = none →
      (s.mayRead a = true ↔ inRows (2 * o.cols)) ∧ s.mayWrite a = false) ∧
    (s.op = some 4#32 → o.startError .unpack16 = none →
      (s.mayRead a = true ↔ inStream (o.rows * pitch (2 * o.cols))) ∧ (s.mayWrite a = true ↔ inRows (2 * o.cols))) ∧
    (s.op = some 5#32 → o.startError .unpack8 = none →
      (s.mayRead a = true ↔ inStream (o.rows * pitch o.cols)) ∧ (s.mayWrite a = true ↔ inRows o.cols)) ∧
    (s.engine = .idle → s.mayRead a = false ∧ s.mayWrite a = false)

/-! ### Errors, reset, the whole machine -/

/-- R170: the number of every error, that different names have different numbers, and that the block's own errors are
exactly the numbers 4 to 9. -/
def Obligations.ErrorCodesAreNumberedAsListed : Prop :=
  ErrCode.noError.code = 0#32 ∧ ErrCode.truncatedInput.code = 1#32 ∧ ErrCode.badMagic.code = 2#32 ∧
  ErrCode.sizeInconsistency.code = 3#32 ∧ ErrCode.unsupportedCompression.code = 4#32 ∧
  ErrCode.dimensionError.code = 5#32 ∧ ErrCode.insufficientPixelData.code = 6#32 ∧ ErrCode.rowOverrun.code = 7#32 ∧
  ErrCode.allocationFailure.code = 8#32 ∧ ErrCode.configError.code = 9#32 ∧
  (∀ e f : ErrCode, e.code = f.code → e = f) ∧
  ∀ e : ErrCode, e.raisedByBlock = true ↔ 4 ≤ e.code.toNat ∧ e.code.toNat ≤ 9

/-- R190, R191, R192: the assertion of `rst`: every register at 0, and of memory only the abandoned command's write
set changes. Three choices of the model: each byte of that set reads as the free value of this draw
(notes/assumptions/2.md); a pending command that would fail a start check has an empty write set, so memory is then
unchanged (notes/assumptions/6.md); the agenda and the host's data stay (notes/assumptions/3.md, 4.md). -/
def Obligations.ResetUnspecifiesTheAbandonedWriteSetOnly : Prop :=
  ∀ (s : State) (moves : List Move), Memory.wf s.mem → s.agenda = .rstAssert :: moves →
    ∃ t, step s = .next t ∧ t.engine = .idle ∧ t.rst = true ∧ t.agenda = moves ∧ t.hostData = s.hostData ∧
      t.operands = { streamAddr := 0#32, streamLen := 0#32, pixAddr := 0#32, pixStride := 0#32, width := 0#32,
                     height := 0#32 } ∧
      t.status = { done := false, err := false, bottomUp := false } ∧
      t.report = { errCode := .noError, alignAssumption := false, shortRow := false, streamUsed := 0#32,
                   errRow := 0#32, errOff := 0#32 } ∧
      ∀ a, Memory.read t.mem a =
        if s.mayWrite a = true then Config.freeByte s.draws a else Memory.read s.mem a

/-- R190: the release of `rst` leaves everything else as it is. -/
def Obligations.ReleasingResetChangesNothingElse : Prop :=
  ∀ (s : State) (moves : List Move), s.agenda = .rstRelease :: moves →
    step s = .next { s with agenda := moves, rst := false }

/-- R177: after any completion of a command the bytes outside its write set are unchanged. -/
def Obligations.CompletionChangesOnlyTheWriteSet : Prop :=
  ∀ (s t : State) (a : Nat), Memory.wf s.mem → s.agenda = [] → step s = .next t → s.engine ≠ .idle →
    s.mayWrite a = false → s.engine.ok s.operands = true → Memory.read t.mem a = Memory.read s.mem a

/-- R11: no command writes an operand register: only a register write and reset do. -/
def Obligations.OnlyHostWritesAndResetChangeOperands : Prop :=
  ∀ (s t : State), step s = .next t →
    (∀ offset size v, s.agenda.head? ≠ some (.regWrite offset size v)) → s.agenda.head? ≠ some .rstAssert →
    t.operands = s.operands

/-- R4, R186: an idle block with no move placed does nothing, and it has no completion step: the engine's moves leave
it as it is (notes/assumptions/3.md: the moves are the model's own). -/
def Obligations.IdleBlockDoesNothing : Prop :=
  ∀ (s : State) (moves : List Move), s.engine = .idle →
    (s.agenda = [] → step s = .next s) ∧
    (s.agenda = .complete :: moves ∨ s.agenda = .advance :: moves → step s = .next { s with agenda := moves })

/-- R16, R27: right after reset the invariant holds, the engine is idle with no working state, every register is 0,
and every register reads 0. That `rst` is released in this state is the model's choice (notes/assumptions/17.md). -/
def Obligations.ResetStateIsIdleAndZero : Prop :=
  Inv State.reset ∧ State.reset.engine = .idle ∧ State.reset.rst = false ∧
    (∀ i : Fin 6, State.reset.operands.x i = 0#32) ∧
    State.reset.status = { done := false, err := false, bottomUp := false } ∧
    State.reset.report = { errCode := .noError, alignAssumption := false, shortRow := false, streamUsed := 0#32,
                           errRow := 0#32, errOff := 0#32 } ∧
    ∀ r : Option Reg, State.reset.readReg r = 0#32

/-- R16, R20, R21, R27, R40, R190: every step keeps the invariant: memory in canonical form inside 2^32 bytes, the
decoder's bounds, the status registers together, and the reset values while `rst` is asserted. -/
def Obligations.EveryStepKeepsTheInvariant : Prop := ∀ s t : State, Inv s → step s = .next t → Inv t

/-- R49: no step from a state that meets the invariant stops with a fault. The fault, which only a fetch and a RUN of
a DECODE raise, is the model's (notes/assumptions/15.md); the addresses of every command are bounded by
EveryFormedAddressIsInTheAddressSpace. -/
def Obligations.NoStepFromTheInvariantFaults : Prop := ∀ s : State, Inv s → Safe s

/-- R13, R49, R58: once the start checks of a command pass, every address it can form lies below 2^32: the bytes of
every pixel of every row, every byte of the stream region (of every command but ENC_SIZE, which forms none), and of an
unpack the bytes of every stream row, at the pitch of its fit test, which lie inside the stream region (R85). -/
def Obligations.EveryFormedAddressIsInTheAddressSpace : Prop :=
  ∀ (o : Operands) (c : MemOp), o.startError c = none →
    (∀ k i b, k < o.rows → i < o.cols → b < c.bpp → o.rowaddr k + c.bpp * i + b < 2 ^ 32) ∧
    (c ≠ .encSize → ∀ i, i < o.len → o.stream + i < 2 ^ 32) ∧
    (c = .unpack16 ∨ c = .unpack8 →
      let u := o.cols * c.bpp
      let pitch := if 4 * ((u + 3) / 4) * o.rows ≤ o.len then 4 * ((u + 3) / 4) else u
      (o.fit c).map Prod.fst = some pitch ∧
      ∀ k j, k < o.rows → j < u → k * pitch + j < o.len ∧ o.stream + (k * pitch + j) < 2 ^ 32)

/-- R153, R157: with no move placed, a busy block completes its command in one step. -/
def Obligations.ABusyBlockCompletes : Prop :=
  ∀ s : State, Inv s → s.busy = true → s.agenda = [] →
    ∃ t, step s = .next t ∧ t.busy = false ∧ t.status.done = true

/-- R16, R152: what the host reads while a command runs. -/
def Obligations.ResultsReadZeroWhileBusy : Prop :=
  ∀ s : State, Inv s → s.busy = true →
    s.readReg (some .status) = (if 0 < s.operands.height.toInt then 0b1001#32 else 0b0001#32) ∧
    s.readReg (some .errcode) = 0#32 ∧ s.readReg (some .diag) = 0#32 ∧ s.readReg (some .streamUsed) = 0#32 ∧
    s.readReg (some .errRow) = 0#32 ∧ s.readReg (some .errOff) = 0#32

/-- R47: stream row `k` goes to a buffer row of the frame, and every buffer row is the place of exactly one stream
row. -/
def Obligations.RowPlacementIsAPermutation : Prop :=
  ∀ o : Operands,
    (∀ k, o.rowaddr k = o.pixAddr.toNat +
      (if 0 < o.height.toInt then o.height.toInt.natAbs - 1 - k else k) * o.pixStride.toNat) ∧
    ∀ r, r < o.rows → ∃ k, k < o.rows ∧ o.rowIndex k = r ∧ ∀ j, j < o.rows → o.rowIndex j = r → j = k
end

