-- ==== Sys2Proof/Laws/Memory.lean ====
section
/-! SUPPORT. What every memory operation does to every byte, and that each keeps the canonical form. -/

namespace Sys2Proof.Machine

theorem Memory.wf_nil : Memory.wf [] := by simp [Memory.wf]

theorem Memory.wf_tail {c : Host.Cell} {m : Memory} (h : Memory.wf (c :: m)) : Memory.wf m :=
  ⟨(List.pairwise_cons.mp h.1).2, fun d hd => h.2 d (List.mem_cons_of_mem _ hd)⟩

/-- Below every listed address a read gives the unlisted byte. -/
theorem Memory.read_below {m : Memory} {a : Nat} (h : ∀ c ∈ m, a < c.1) : Memory.read m a = Config.unlistedByte := by
  induction m with
  | nil => rfl
  | cons c m ih =>
    obtain ⟨k, v⟩ := c
    have hk : a < k := h (k, v) (List.mem_cons_self ..)
    rw [Memory.read, if_neg (by omega)]
    exact ih fun d hd => h d (List.mem_cons_of_mem _ hd)

/-- Every entry a write leaves was there before, or is the written one. -/
theorem Memory.mem_write {m : Memory} {a : Nat} {b : Byte} {c : Host.Cell} (h : c ∈ Memory.write m a b) :
    c ∈ m ∨ (c = (a, b) ∧ b ≠ Config.unlistedByte) := by
  induction m with
  | nil =>
    rw [Memory.write] at h
    split at h
    · simp at h
    · exact .inr ⟨by simpa using h, ‹_›⟩
  | cons d m ih =>
    obtain ⟨k, v⟩ := d
    rw [Memory.write] at h
    split at h
    · split at h
      · exact .inl h
      · rcases List.mem_cons.mp h with h | h
        · exact .inr ⟨h, ‹_›⟩
        · exact .inl h
    · split at h
      · split at h
        · exact .inl (List.mem_cons_of_mem _ h)
        · rcases List.mem_cons.mp h with h | h
          · subst_vars; exact .inr ⟨rfl, ‹_›⟩
          · exact .inl (List.mem_cons_of_mem _ h)
      · rcases List.mem_cons.mp h with h | h
        · exact .inl (h ▸ List.mem_cons_self ..)
        · exact (ih h).imp (List.mem_cons_of_mem _) id

/-- A write inside the address space keeps the canonical form. -/
theorem Memory.wf_write {m : Memory} {a : Nat} (b : Byte) (h : Memory.wf m) (ha : a < 2 ^ 32) :
    Memory.wf (Memory.write m a b) := by
  refine ⟨?_, fun c hc => ?_⟩
  · induction m with
    | nil => rw [Memory.write]; split <;> simp
    | cons d m ih =>
      obtain ⟨k, v⟩ := d
      have hp := List.pairwise_cons.mp h.1
      rw [Memory.write]
      split
      · split
        · exact h.1
        · refine List.pairwise_cons.mpr ⟨fun c hc => ?_, h.1⟩
          rcases List.mem_cons.mp hc with rfl | hc
          · assumption
          · have := hp.1 c hc; simp only at this ⊢; omega
      · split
        · split
          · exact hp.2
          · exact List.pairwise_cons.mpr ⟨hp.1, hp.2⟩
        · refine List.pairwise_cons.mpr ⟨fun c hc => ?_, ih (Memory.wf_tail h)⟩
          rcases Memory.mem_write hc with hc | ⟨rfl, -⟩
          · exact hp.1 c hc
          · simp only; omega
  · rcases Memory.mem_write hc with hc | ⟨rfl, hb⟩
    · exact h.2 c hc
    · exact ⟨hb, ha⟩

/-- The one law of a write: the byte written is the byte read, every other byte stays. -/
theorem Memory.read_write {m : Memory} (h : Memory.wf m) (a : Nat) (b : Byte) (x : Nat) :
    Memory.read (Memory.write m a b) x = if x = a then b else Memory.read m x := by
  induction m with
  | nil =>
    rw [Memory.write]
    split <;> simp_all [Memory.read]
  | cons d m ih =>
    obtain ⟨k, v⟩ := d
    have hp := (List.pairwise_cons.mp h.1).1
    have hbelow : ∀ x, x ≤ k → Memory.read m x = Config.unlistedByte := fun x hx =>
      Memory.read_below fun c hc => by have := hp c hc; simp only at this; omega
    rw [Memory.write]
    split
    · split
      · by_cases hx : x = a
        · subst hx; simp [Memory.read, hbelow x (by omega), show x ≠ k by omega, *]
        · simp [hx]
      · simp [Memory.read]
    · split
      · subst_vars
        split
        · by_cases hx : x = k
          · subst hx; simp [hbelow x le_rfl, *]
          · simp [Memory.read, hx]
        · by_cases hx : x = k <;> simp [Memory.read, hx]
      · rw [Memory.read, ih (Memory.wf_tail h)]
        by_cases hx : x = k
        · subst hx; rw [if_pos rfl, if_neg (by omega), Memory.read, if_pos rfl]
        · simp [Memory.read, hx]

theorem Memory.read_write_same {m : Memory} (h : Memory.wf m) (a : Nat) (b : Byte) :
    Memory.read (Memory.write m a b) a = b := by simp [Memory.read_write h]

theorem Memory.read_write_other {m : Memory} (h : Memory.wf m) {a x : Nat} (b : Byte) (hx : x ≠ a) :
    Memory.read (Memory.write m a b) x = Memory.read m x := by simp [Memory.read_write h, hx]

/-- Equal reads make equal memories: the canonical form is canonical. -/
theorem Memory.ext_of_wf {m n : Memory} (hm : Memory.wf m) (hn : Memory.wf n)
    (h : ∀ a, Memory.read m a = Memory.read n a) : m = n := by
  induction m generalizing n with
  | nil =>
    cases n with
    | nil => rfl
    | cons d n =>
      have := h d.1
      simp only [Memory.read, ite_true] at this
      exact absurd this.symm (hn.2 d (List.mem_cons_self ..)).1
  | cons c m ih =>
    cases n with
    | nil =>
      have := h c.1
      simp only [Memory.read, ite_true] at this
      exact absurd this (hm.2 c (List.mem_cons_self ..)).1
    | cons d n =>
      have hpc := (List.pairwise_cons.mp hm.1).1
      have hpd := (List.pairwise_cons.mp hn.1).1
      have hcv := (hm.2 c (List.mem_cons_self ..)).1
      have hdv := (hn.2 d (List.mem_cons_self ..)).1
      have key : c.1 = d.1 := by
        rcases Nat.lt_trichotomy c.1 d.1 with hlt | heq | hgt
        · have := h c.1
          rw [Memory.read, if_pos rfl, Memory.read_below (m := d :: n)] at this
          · exact absurd this hcv
          · intro e he
            rcases List.mem_cons.mp he with rfl | he
            · exact hlt
            · have := hpd e he; omega
        · exact heq
        · have := h d.1
          rw [Memory.read_below (m := c :: m), Memory.read, if_pos rfl] at this
          · exact absurd this.symm hdv
          · intro e he
            rcases List.mem_cons.mp he with rfl | he
            · exact hgt
            · have := hpc e he; omega
      have hv : c.2 = d.2 := by
        have := h c.1
        rw [Memory.read, if_pos rfl, Memory.read, if_pos key] at this
        exact this
      obtain rfl : c = d := Prod.ext key hv
      congr 1
      refine ih (Memory.wf_tail hm) (Memory.wf_tail hn) fun a => ?_
      by_cases ha : a ≤ c.1
      · rw [Memory.read_below fun e he => lt_of_le_of_lt ha (hpc e he),
          Memory.read_below fun e he => lt_of_le_of_lt ha (hpd e he)]
      · have := h a
        rwa [Memory.read, Memory.read, if_neg (by omega), if_neg (by omega)] at this

/-! ### Fills -/

theorem Memory.wf_fill {m : Memory} {a n : Nat} {f : Nat → Byte} (h : Memory.wf m) (ha : a + n ≤ 2 ^ 32) :
    Memory.wf (Memory.fill m a f n) := by
  induction n with
  | zero => exact h
  | succ n ih => exact Memory.wf_write _ (ih (by omega)) (by omega)

/-- The one law of a fill. -/
theorem Memory.read_fill {m : Memory} {a n : Nat} {f : Nat → Byte} (h : Memory.wf m) (ha : a + n ≤ 2 ^ 32) (x : Nat) :
    Memory.read (Memory.fill m a f n) x = if a ≤ x ∧ x < a + n then f x else Memory.read m x := by
  induction n with
  | zero => rw [Memory.fill, if_neg (by omega)]
  | succ n ih =>
    rw [Memory.fill, Memory.read_write (Memory.wf_fill h (by omega)), ih (by omega)]
    by_cases hx : x = a + n
    · subst hx; simp
    · rw [if_neg hx]
      by_cases h1 : a ≤ x ∧ x < a + n
      · rw [if_pos h1, if_pos (by omega)]
      · rw [if_neg h1, if_neg (by omega)]

theorem Memory.wf_fillRows {m : Memory} {base stride len n : Nat} {f : Nat → Byte} (h : Memory.wf m)
    (hb : ∀ r < n, base + r * stride + len ≤ 2 ^ 32) : Memory.wf (Memory.fillRows m base stride len f n) := by
  induction n with
  | zero => exact h
  | succ n ih => exact Memory.wf_fill (ih fun r hr => hb r (by omega)) (hb n (by omega))

/-- A byte in some row of a fill by rows takes its new value. -/
theorem Memory.read_fillRows_of_mem {m : Memory} {base stride len n : Nat} {f : Nat → Byte} (h : Memory.wf m)
    (hb : ∀ r < n, base + r * stride + len ≤ 2 ^ 32) {x r : Nat} (hr : r < n) (h1 : base + r * stride ≤ x)
    (h2 : x < base + r * stride + len) : Memory.read (Memory.fillRows m base stride len f n) x = f x := by
  induction n with
  | zero => omega
  | succ n ih =>
    have hb' : ∀ r < n, base + r * stride + len ≤ 2 ^ 32 := fun r hr => hb r (by omega)
    rw [Memory.fillRows, Memory.read_fill (Memory.wf_fillRows h hb') (hb n (by omega))]
    by_cases hx : base + n * stride ≤ x ∧ x < base + n * stride + len
    · rw [if_pos hx]
    · rw [if_neg hx]
      have : r ≠ n := by rintro rfl; exact hx ⟨h1, h2⟩
      exact ih hb' (by omega)

/-- A byte in no row of a fill by rows stays. -/
theorem Memory.read_fillRows_of_not_mem {m : Memory} {base stride len n : Nat} {f : Nat → Byte} (h : Memory.wf m)
    (hb : ∀ r < n, base + r * stride + len ≤ 2 ^ 32) {x : Nat}
    (hx : ∀ r < n, ¬ (base + r * stride ≤ x ∧ x < base + r * stride + len)) :
    Memory.read (Memory.fillRows m base stride len f n) x = Memory.read m x := by
  induction n with
  | zero => rfl
  | succ n ih =>
    have hb' : ∀ r < n, base + r * stride + len ≤ 2 ^ 32 := fun r hr => hb r (by omega)
    rw [Memory.fillRows, Memory.read_fill (Memory.wf_fillRows h hb') (hb n (by omega)), if_neg (hx n (by omega))]
    exact ih hb' fun r hr => hx r (by omega)

/-! ### Sixteen-bit values -/

theorem Memory.wf_write16 {m : Memory} {a : Nat} (v : Half) (h : Memory.wf m) (ha : a + 1 < 2 ^ 32) :
    Memory.wf (Memory.write16 m a v) :=
  Memory.wf_write _ (Memory.wf_write _ h (by omega)) ha

/-- The one law of a two-byte write. -/
theorem Memory.read_write16 {m : Memory} (h : Memory.wf m) {a : Nat} (ha : a + 1 < 2 ^ 32) (v : Half) (x : Nat) :
    Memory.read (Memory.write16 m a v) x =
      if x = a then v.extractLsb' 0 8 else if x = a + 1 then v.extractLsb' 8 8 else Memory.read m x := by
  rw [Memory.write16, Memory.read_write (Memory.wf_write _ h (by omega)), Memory.read_write h]
  by_cases h1 : x = a
  · subst h1; simp
  · by_cases h2 : x = a + 1 <;> simp [h1, h2]

/-- A 16-bit value is its two bytes. -/
theorem half_of_bytes (v : Half) : v.extractLsb' 8 8 ++ v.extractLsb' 0 8 = v := by
  ext i hi
  rw [BitVec.getElem_append]
  split
  · simp [BitVec.getLsbD_eq_getElem hi]
  · rw [BitVec.getElem_extractLsb']
    rw [show 8 + (i - 8) = i by omega, BitVec.getLsbD_eq_getElem]

theorem Memory.read16_write16_same {m : Memory} (h : Memory.wf m) {a : Nat} (ha : a + 1 < 2 ^ 32) (v : Half) :
    Memory.read16 (Memory.write16 m a v) a = v := by
  rw [Memory.read16, Memory.read_write16 h ha, Memory.read_write16 h ha]
  simp [half_of_bytes]

theorem Memory.wf_writePixels {m : Memory} {a n : Nat} (v : Half) (h : Memory.wf m) (ha : a + 2 * n ≤ 2 ^ 32) :
    Memory.wf (Memory.writePixels m a v n) := by
  induction n with
  | zero => exact h
  | succ n ih => exact Memory.wf_write16 _ (ih (by omega)) (by omega)

/-- A byte outside the pixels of a run stays. -/
theorem Memory.read_writePixels_outside {m : Memory} {a n : Nat} (v : Half) (h : Memory.wf m)
    (ha : a + 2 * n ≤ 2 ^ 32) {x : Nat} (hx : x < a ∨ a + 2 * n ≤ x) :
    Memory.read (Memory.writePixels m a v n) x = Memory.read m x := by
  induction n with
  | zero => rfl
  | succ n ih =>
    rw [Memory.writePixels, Memory.read_write16 (Memory.wf_writePixels _ h (by omega)) (by omega),
      if_neg (by omega), if_neg (by omega)]
    exact ih (by omega) (by omega)

/-- Each pixel of a run reads as the run's pixel. -/
theorem Memory.read16_writePixels {m : Memory} {a n : Nat} (v : Half) (h : Memory.wf m)
    (ha : a + 2 * n ≤ 2 ^ 32) {i : Nat} (hi : i < n) :
    Memory.read16 (Memory.writePixels m a v n) (a + 2 * i) = v := by
  induction n with
  | zero => omega
  | succ n ih =>
    have hw := Memory.wf_writePixels v h (show a + 2 * n ≤ 2 ^ 32 by omega)
    by_cases hin : i = n
    · subst hin; exact Memory.read16_write16_same hw (by omega) v
    · rw [Memory.writePixels, Memory.read16, Memory.read_write16 hw (by omega), Memory.read_write16 hw (by omega),
        if_neg (by omega), if_neg (by omega), if_neg (by omega), if_neg (by omega)]
      exact ih (by omega) (by omega)

end Sys2Proof.Machine
end

