-- ==== Sys2Proof/Laws/Operands.lean ====
section
/-! SUPPORT. What the start checks leave (60_exceptions.md R171, R172): where rows and streams lie, and what becomes
of memory where the spec leaves a write set unspecified. -/

namespace Sys2Proof.Machine

@[simp] theorem MemOp.bpp_decode : MemOp.decode.bpp = 2 := rfl
@[simp] theorem MemOp.bpp_encode : MemOp.encode.bpp = 2 := rfl
@[simp] theorem MemOp.bpp_encSize : MemOp.encSize.bpp = 2 := rfl
@[simp] theorem MemOp.bpp_unpack16 : MemOp.unpack16.bpp = 2 := rfl
@[simp] theorem MemOp.bpp_unpack8 : MemOp.unpack8.bpp = 1 := rfl

@[simp] theorem memOpOf_word (c : MemOp) : memOpOf c.word = some c := by cases c <;> rfl

/-- The start checks pass exactly when none of the three conditions holds (R155). -/
theorem Operands.startError_eq_none {o : Operands} {op : MemOp} :
    o.startError op = none ↔ o.badDimensions = false ∧ o.badConfig op = false ∧ o.badFit op = false := by
  unfold Operands.startError
  cases o.badDimensions <;> cases o.badConfig op <;> cases o.badFit op <;> simp

/-- R171 on integers. -/
theorem Operands.badDimensions_eq_false {o : Operands} :
    o.badDimensions = false ↔ 1 ≤ o.width.toInt ∧ o.height.toInt ≠ 0 := by
  simp [Operands.badDimensions]
  omega

/-- R172 on integers. -/
theorem Operands.badConfig_eq_false {o : Operands} {op : MemOp} :
    o.badConfig op = false ↔
      o.payload op ≤ o.pixStride.toNat ∧ o.pend op ≤ 2 ^ 32 ∧
        (op ≠ .encSize → o.send ≤ 2 ^ 32 ∧ (o.len = 0 ∨ o.pend op ≤ o.stream ∨ o.send ≤ o.pixAddr.toNat)) := by
  by_cases h : op = .encSize <;> simp [Operands.badConfig, h]
  omega

/-- `w >= 1` and `rows >= 1` once the dimensions are checked. -/
theorem Operands.one_le_of_dimensions {o : Operands} (h : o.badDimensions = false) : 1 ≤ o.cols ∧ 1 ≤ o.rows := by
  have := Operands.badDimensions_eq_false.mp h
  simp only [Operands.cols, Operands.rows]
  omega

theorem Operands.rowIndex_lt {o : Operands} {k : Nat} (h : k < o.rows) : o.rowIndex k < o.rows := by
  unfold Operands.rowIndex; split <;> omega

/-- Different stream rows go to different buffer rows (R47). -/
theorem Operands.rowIndex_inj {o : Operands} {j k : Nat} (hj : j < o.rows) (hk : k < o.rows)
    (h : o.rowIndex j = o.rowIndex k) : j = k := by
  unfold Operands.rowIndex at h; split at h <;> omega

/-- Every buffer row is the row of some stream row (R47). -/
theorem Operands.exists_rowIndex {o : Operands} {r : Nat} (h : r < o.rows) : ∃ k < o.rows, o.rowIndex k = r := by
  unfold Operands.rowIndex
  split
  · exact ⟨o.rows - 1 - r, by omega, by omega⟩
  · exact ⟨r, h, rfl⟩

theorem Operands.bufferRow_mono {o : Operands} {q r : Nat} (h : q ≤ r) : o.bufferRow q ≤ o.bufferRow r :=
  Nat.add_le_add_left (Nat.mul_le_mul_right _ h) _

/-- The payload of every buffer row ends at or before `PEND`. -/
theorem Operands.bufferRow_end_le_pend {o : Operands} {op : MemOp} {r : Nat} (h : r < o.rows) :
    o.bufferRow r + o.payload op ≤ o.pend op :=
  Nat.add_le_add_right (Operands.bufferRow_mono (by omega)) _

/-- The payload of every stream row's buffer row ends inside the address space (R49). -/
theorem Operands.rowaddr_end_le {o : Operands} {op : MemOp} (hc : o.badConfig op = false) {k : Nat}
    (h : k < o.rows) : o.rowaddr k + o.payload op ≤ 2 ^ 32 :=
  (Operands.bufferRow_end_le_pend (Operands.rowIndex_lt h)).trans (Operands.badConfig_eq_false.mp hc).2.1

/-- Rows do not meet when the stride is at least the payload: later rows begin after earlier ones end. -/
theorem Operands.bufferRow_disjoint {o : Operands} {op : MemOp} (hc : o.badConfig op = false) {q r : Nat} (h : q < r) :
    o.bufferRow q + o.payload op ≤ o.bufferRow r := by
  have h1 := (Operands.badConfig_eq_false.mp hc).1
  have h2 : (q + 1) * o.pixStride.toNat ≤ r * o.pixStride.toNat := Nat.mul_le_mul_right _ h
  rw [Nat.add_mul] at h2
  simp only [Operands.bufferRow]
  omega

/-- The unrounded row length is the row payload (R46, R83). -/
theorem Operands.unrounded_eq_payload (o : Operands) (op : MemOp) : o.unrounded op = o.payload op := by
  cases op <;> simp only [Operands.unrounded, Operands.payload, ceilDiv, MemOp.bits, MemOp.bpp] <;> omega

/-- Everything the fit test can answer (R84), the row lengths by the row payload. -/
theorem Operands.fit_cases (o : Operands) (op : MemOp) :
    (4 * ((o.payload op + 3) / 4) * o.rows ≤ o.len ∧ o.fit op = some (4 * ((o.payload op + 3) / 4), false)) ∨
    (o.len < 4 * ((o.payload op + 3) / 4) * o.rows ∧ o.payload op * o.rows ≤ o.len ∧
      o.fit op = some (o.payload op, true)) ∨
    (o.len < o.payload op * o.rows ∧ o.fit op = none) := by
  have hp : roundup4 (o.payload op) = 4 * ((o.payload op + 3) / 4) := rfl
  have hle : o.payload op * o.rows ≤ 4 * ((o.payload op + 3) / 4) * o.rows := Nat.mul_le_mul_right _ (by omega)
  simp only [Operands.fit, Operands.unrounded_eq_payload, hp]
  split
  · exact .inl ⟨‹_›, rfl⟩
  · split
    · exact .inr (.inl ⟨by omega, ‹_›, rfl⟩)
    · exact .inr (.inr ⟨by omega, rfl⟩)

/-- A byte is a payload byte exactly when it lies in the payload of some row (R48). -/
theorem Operands.inPixels_eq_true {o : Operands} {op : MemOp} (hc : o.badConfig op = false) (a : Nat) :
    o.inPixels op a = true ↔ ∃ r < o.rows, o.bufferRow r ≤ a ∧ a < o.bufferRow r + o.payload op := by
  have hs := (Operands.badConfig_eq_false.mp hc).1
  simp only [Operands.inPixels, Operands.bufferRow, Bool.and_eq_true, decide_eq_true_eq]
  constructor
  · rintro ⟨⟨h1, h2⟩, h3⟩
    refine ⟨_, h2, ?_, ?_⟩ <;>
      have := Nat.div_add_mod (a - o.pixAddr.toNat) o.pixStride.toNat <;> rw [Nat.mul_comm] at this <;> omega
  · rintro ⟨r, hr, h1, h2⟩
    have hlt : a - o.pixAddr.toNat - r * o.pixStride.toNat < o.pixStride.toNat := by omega
    have hdiv : (a - o.pixAddr.toNat) / o.pixStride.toNat = r := by
      refine Nat.div_eq_of_lt_le (by omega) ?_
      rw [Nat.succ_mul]
      omega
    have hmod := Nat.div_add_mod (a - o.pixAddr.toNat) o.pixStride.toNat
    rw [hdiv, Nat.mul_comm] at hmod
    exact ⟨⟨by omega, hdiv ▸ hr⟩, by omega⟩

theorem Operands.inStream_eq_true {o : Operands} {n a : Nat} :
    o.inStream n a = true ↔ o.stream ≤ a ∧ a < o.stream + n := by simp [Operands.inStream]

/-- The rows of a fill by rows end inside the address space. -/
theorem Operands.rows_in_space {o : Operands} {op : MemOp} (hc : o.badConfig op = false) :
    ∀ r < o.rows, o.pixAddr.toNat + r * o.pixStride.toNat + o.payload op ≤ 2 ^ 32 := fun _ hr =>
  (Operands.bufferRow_end_le_pend hr).trans (Operands.badConfig_eq_false.mp hc).2.1

theorem Memory.wf_unspecify {m : Memory} {op : MemOp} {o : Operands} {draw : Nat} (h : Memory.wf m) :
    Memory.wf (Memory.unspecify m op o draw) := by
  unfold Memory.unspecify
  split
  · exact h
  · rename_i hs
    obtain ⟨-, hc, -⟩ := Operands.startError_eq_none.mp (by simpa using hs)
    cases op
    · exact Memory.wf_fillRows h (Operands.rows_in_space hc)
    · exact Memory.wf_fill h ((Operands.badConfig_eq_false.mp hc).2.2 (by decide)).1
    · exact h
    · exact Memory.wf_fillRows h (Operands.rows_in_space hc)
    · exact Memory.wf_fillRows h (Operands.rows_in_space hc)

/-- What rows of free bytes read as. -/
theorem Memory.read_free_rows {m : Memory} {op : MemOp} {o : Operands} {f : Nat → Byte} (h : Memory.wf m)
    (hc : o.badConfig op = false) (a : Nat) :
    Memory.read (Memory.fillRows m o.pixAddr.toNat o.pixStride.toNat (o.payload op) f o.rows) a =
      if o.inPixels op a = true then f a else Memory.read m a := by
  split
  · rename_i hp
    obtain ⟨r, hr, h1, h2⟩ := (Operands.inPixels_eq_true hc a).mp hp
    exact Memory.read_fillRows_of_mem h (Operands.rows_in_space hc) hr h1 h2
  · rename_i hp
    refine Memory.read_fillRows_of_not_mem h (Operands.rows_in_space hc) fun r hr hx => hp ?_
    exact (Operands.inPixels_eq_true hc a).mpr ⟨r, hr, hx⟩

/-- The one law of an unspecified write set: its bytes are free values, every other byte stays (R177, R191). -/
theorem Memory.read_unspecify {m : Memory} {op : MemOp} {o : Operands} {draw : Nat} (h : Memory.wf m) (a : Nat) :
    Memory.read (Memory.unspecify m op o draw) a =
      if o.writeSet op a = true then Config.freeByte draw a else Memory.read m a := by
  unfold Memory.unspecify
  split
  · rename_i hs
    have : o.writeSet op a = false := by
      cases he : o.startError op <;> simp_all [Operands.writeSet]
    simp [this]
  · rename_i hs
    have hn : o.startError op = none := by simpa using hs
    obtain ⟨-, hc, -⟩ := Operands.startError_eq_none.mp hn
    cases op
    · simp only [Operands.writeSet, hn, Option.isNone_none, Bool.true_and]
      exact Memory.read_free_rows h hc a
    · simp only [Operands.writeSet, hn, Option.isNone_none, Bool.true_and, Operands.inStream_eq_true]
      exact Memory.read_fill h ((Operands.badConfig_eq_false.mp hc).2.2 (by decide)).1 a
    · simp [Operands.writeSet]
    · simp only [Operands.writeSet, hn, Option.isNone_none, Bool.true_and]
      exact Memory.read_free_rows h hc a
    · simp only [Operands.writeSet, hn, Option.isNone_none, Bool.true_and]
      exact Memory.read_free_rows h hc a

end Sys2Proof.Machine
end

