-- ==== Sys2Proof/Laws/State.lean ====
section
/-! SUPPORT. One lemma per field per update of the state, true by rfl, so that no later proof unfolds an update. -/

namespace Sys2Proof.Machine

section start
variable (s : State) (v : Word)
@[simp] theorem State.start_operands : (s.start v).operands = s.operands := rfl
@[simp] theorem State.start_engine : (s.start v).engine = .pending v := rfl
@[simp] theorem State.start_mem : (s.start v).mem = s.mem := rfl
@[simp] theorem State.start_report : (s.start v).report = .clear := rfl
@[simp] theorem State.start_done : (s.start v).status.done = false := rfl
@[simp] theorem State.start_err : (s.start v).status.err = false := rfl
@[simp] theorem State.start_bottomUp : (s.start v).status.bottomUp = s.operands.bottomUp := rfl
@[simp] theorem State.start_rst : (s.start v).rst = s.rst := rfl
@[simp] theorem State.start_agenda : (s.start v).agenda = s.agenda := rfl
@[simp] theorem State.start_hostData : (s.start v).hostData = s.hostData := rfl
@[simp] theorem State.start_draws : (s.start v).draws = s.draws := rfl
@[simp] theorem State.start_busy : (s.start v).busy = true := rfl
end start

section finish
variable (s : State) (c : CmdOutcome)
@[simp] theorem State.finish_operands : (s.finish c).operands = s.operands := rfl
@[simp] theorem State.finish_engine : (s.finish c).engine = .idle := rfl
@[simp] theorem State.finish_mem : (s.finish c).mem = c.mem := rfl
@[simp] theorem State.finish_report : (s.finish c).report = c.report := rfl
@[simp] theorem State.finish_done : (s.finish c).status.done = true := rfl
@[simp] theorem State.finish_err : (s.finish c).status.err = decide (c.err ≠ .noError) := rfl
@[simp] theorem State.finish_bottomUp : (s.finish c).status.bottomUp = s.status.bottomUp := rfl
@[simp] theorem State.finish_rst : (s.finish c).rst = s.rst := rfl
@[simp] theorem State.finish_agenda : (s.finish c).agenda = s.agenda := rfl
@[simp] theorem State.finish_hostData : (s.finish c).hostData = s.hostData := rfl
@[simp] theorem State.finish_draws : (s.finish c).draws = s.draws := rfl
@[simp] theorem State.finish_busy : (s.finish c).busy = false := rfl
end finish

section raiseAtStart
variable (s : State) (e : ErrCode)
@[simp] theorem State.raiseAtStart_operands : (s.raiseAtStart e).operands = s.operands := rfl
@[simp] theorem State.raiseAtStart_engine : (s.raiseAtStart e).engine = .idle := rfl
@[simp] theorem State.raiseAtStart_mem : (s.raiseAtStart e).mem = s.mem := rfl
@[simp] theorem State.raiseAtStart_rst : (s.raiseAtStart e).rst = s.rst := rfl
@[simp] theorem State.raiseAtStart_agenda : (s.raiseAtStart e).agenda = s.agenda := rfl
@[simp] theorem State.raiseAtStart_draws : (s.raiseAtStart e).draws = s.draws := rfl
@[simp] theorem State.raiseAtStart_done : (s.raiseAtStart e).status.done = true := rfl
@[simp] theorem State.raiseAtStart_err : (s.raiseAtStart e).status.err = decide (e ≠ .noError) := rfl
@[simp] theorem State.raiseAtStart_bottomUp : (s.raiseAtStart e).status.bottomUp = s.status.bottomUp := rfl
@[simp] theorem State.raiseAtStart_hostData : (s.raiseAtStart e).hostData = s.hostData := rfl
end raiseAtStart

section raiseInRows
variable (s : State) (op : MemOp) (r : Raise)
@[simp] theorem State.raiseInRows_operands : (s.raiseInRows op r).operands = s.operands := rfl
@[simp] theorem State.raiseInRows_engine : (s.raiseInRows op r).engine = .idle := rfl
@[simp] theorem State.raiseInRows_mem :
    (s.raiseInRows op r).mem = Memory.unspecify s.mem op s.operands s.draws := rfl
@[simp] theorem State.raiseInRows_rst : (s.raiseInRows op r).rst = s.rst := rfl
@[simp] theorem State.raiseInRows_agenda : (s.raiseInRows op r).agenda = s.agenda := rfl
@[simp] theorem State.raiseInRows_draws : (s.raiseInRows op r).draws = s.draws + 1 := rfl
@[simp] theorem State.raiseInRows_done : (s.raiseInRows op r).status.done = true := rfl
@[simp] theorem State.raiseInRows_err : (s.raiseInRows op r).status.err = decide (r.err ≠ .noError) := rfl
@[simp] theorem State.raiseInRows_bottomUp : (s.raiseInRows op r).status.bottomUp = s.status.bottomUp := rfl
@[simp] theorem State.raiseInRows_hostData : (s.raiseInRows op r).hostData = s.hostData := rfl
end raiseInRows

section succeed
variable (s : State) (m : Memory) (used : Nat) (al sh : Bool)
@[simp] theorem State.succeed_operands : (s.succeed m used al sh).operands = s.operands := rfl
@[simp] theorem State.succeed_engine : (s.succeed m used al sh).engine = .idle := rfl
@[simp] theorem State.succeed_mem : (s.succeed m used al sh).mem = m := rfl
@[simp] theorem State.succeed_rst : (s.succeed m used al sh).rst = s.rst := rfl
@[simp] theorem State.succeed_agenda : (s.succeed m used al sh).agenda = s.agenda := rfl
@[simp] theorem State.succeed_draws : (s.succeed m used al sh).draws = s.draws := rfl
@[simp] theorem State.succeed_hostData : (s.succeed m used al sh).hostData = s.hostData := rfl
@[simp] theorem State.succeed_status : (s.succeed m used al sh).status =
    { done := true, err := false, bottomUp := s.status.bottomUp } := rfl
@[simp] theorem State.succeed_report : (s.succeed m used al sh).report =
    { errCode := .noError, alignAssumption := al, shortRow := sh, streamUsed := BitVec.ofNat 32 used,
      errRow := 0#32, errOff := 0#32 } := rfl
end succeed

section clearResults
variable (s : State)
@[simp] theorem State.clearResults_operands : s.clearResults.operands = s.operands := rfl
@[simp] theorem State.clearResults_engine : s.clearResults.engine = s.engine := rfl
@[simp] theorem State.clearResults_mem : s.clearResults.mem = s.mem := rfl
@[simp] theorem State.clearResults_status : s.clearResults.status = .clear := rfl
@[simp] theorem State.clearResults_report : s.clearResults.report = .clear := rfl
@[simp] theorem State.clearResults_rst : s.clearResults.rst = s.rst := rfl
@[simp] theorem State.clearResults_agenda : s.clearResults.agenda = s.agenda := rfl
@[simp] theorem State.clearResults_hostData : s.clearResults.hostData = s.hostData := rfl
@[simp] theorem State.clearResults_draws : s.clearResults.draws = s.draws := rfl
end clearResults

section assertReset
variable (s : State)
@[simp] theorem State.assertReset_operands : s.assertReset.operands = .zero := rfl
@[simp] theorem State.assertReset_engine : s.assertReset.engine = .idle := rfl
@[simp] theorem State.assertReset_mem : s.assertReset.mem = s.abandonedMem := rfl
@[simp] theorem State.assertReset_status : s.assertReset.status = .clear := rfl
@[simp] theorem State.assertReset_report : s.assertReset.report = .clear := rfl
@[simp] theorem State.assertReset_rst : s.assertReset.rst = true := rfl
@[simp] theorem State.assertReset_agenda : s.assertReset.agenda = s.agenda := rfl
@[simp] theorem State.assertReset_hostData : s.assertReset.hostData = s.hostData := rfl
end assertReset

/-- The report of an outcome with an error (R153). -/
theorem CmdOutcome.report_of_error {c : CmdOutcome} (h : c.err ≠ .noError) : c.report =
    { errCode := c.err, alignAssumption := false, shortRow := false, streamUsed := 0#32,
      errRow := BitVec.ofNat 32 c.row, errOff := BitVec.ofNat 32 c.off } := by
  simp [CmdOutcome.report, h]

/-- What the engine's three forms make of BUSY (R15). -/
@[simp] theorem State.busy_eq_false_iff {s : State} : s.busy = false ↔ s.engine = .idle := by
  cases h : s.engine <;> simp [State.busy, h]

@[simp] theorem State.busy_of_pending {s : State} {v : Word} (h : s.engine = .pending v) : s.busy = true := by
  simp [State.busy, h]

@[simp] theorem State.busy_of_decoding {s : State} {d : DecodeWork} (h : s.engine = .decoding d) :
    s.busy = true := by
  simp [State.busy, h]

end Sys2Proof.Machine
end

