-- ==== Sys2Proof/Laws/Decoder.lean ====
section
/-! SUPPORT. Everything a token can do to a DECODE in progress (41_nibble_rle_decoder.md R101 to R108), and that the
words of a stream run out (R109). -/

namespace Sys2Proof.Machine

theorem State.atPosition_next {s s' : State} {pos : Position} {rule : DecodeWork → Answer}
    (h : s.atPosition pos rule = .next s') : ∃ d, s.engine = .decoding d ∧ d.pos = pos ∧ rule d = .next s' := by
  unfold State.atPosition at h
  split at h
  · cases h
  · cases h
  · split at h
    · exact ⟨_, ‹_›, ‹_›, h⟩
    · cases h

theorem State.atPosition_of_decoding {s : State} {d : DecodeWork} (h : s.engine = .decoding d)
    (rule : DecodeWork → Answer) : s.atPosition d.pos rule = rule d := by simp [State.atPosition, h]

/-- What the end of a row leaves: the next row's start, or the command's completion (R107, R108). -/
theorem State.endDecodeRow_cases (s : State) (d : DecodeWork) :
    (d.k + 1 < s.operands.rows ∧ s.endDecodeRow d =
      { s with
        engine := .decoding
          { cur := d.cur, c0 := d.cur, k := d.k + 1, xpos := 0,
            short := d.short || decide (d.xpos < s.operands.cols), pos := .item } }) ∨
    (s.operands.rows ≤ d.k + 1 ∧
      s.endDecodeRow d = s.succeed s.mem d.cur false (d.short || decide (d.xpos < s.operands.cols))) := by
  unfold State.endDecodeRow
  dsimp only
  split
  · exact .inl ⟨‹_›, rfl⟩
  · exact .inr ⟨by omega, rfl⟩

/-- RUN, where it gives a next state (R103). -/
theorem execRun_next {r g b n : BitVec 4} {s s' : State} (h : execRun r g b n s = .next s') :
    ∃ d, s.engine = .decoding d ∧ d.pos = .item ∧
      ((s.operands.cols < d.xpos + n.toNat ∧
        s' = s.raiseInRows .decode { err := .rowOverrun, row := d.k, off := d.cur - 2 }) ∨
      (d.xpos + n.toNat ≤ s.operands.cols ∧ s.operands.rowaddr d.k + 2 * (d.xpos + n.toNat) ≤ 2 ^ 32 ∧
        s' = { s with
          mem := Memory.writePixels s.mem (s.operands.rowaddr d.k + 2 * d.xpos) (widen (tokenWord r g b n)) n.toNat
          engine := .decoding { d with xpos := d.xpos + n.toNat } })) := by
  obtain ⟨d, hd, hp, hr⟩ := State.atPosition_next h
  refine ⟨d, hd, hp, ?_⟩
  split at hr
  · exact .inl ⟨by omega, by cases hr; rfl⟩
  · split at hr
    · cases hr
    · exact .inr ⟨by omega, by omega, by cases hr; rfl⟩

/-- ZRUN, where it gives a next state (R104). -/
theorem execZrun_next {r g b : BitVec 4} {s s' : State} (h : execZrun r g b s = .next s') :
    ∃ d, s.engine = .decoding d ∧ d.pos = .item ∧ s' = s := by
  obtain ⟨d, hd, hp, hr⟩ := State.atPosition_next h
  exact ⟨d, hd, hp, by cases hr; rfl⟩

/-- EOR, where it gives a next state (R105, R106). -/
theorem execEor_next {s s' : State} (h : execEor s = .next s') :
    ∃ d, s.engine = .decoding d ∧ d.pos = .item ∧
      (((d.cur - d.c0) % 4 ≠ 0 ∧ s' = { s with engine := .decoding { d with pos := .padding } }) ∨
        ((d.cur - d.c0) % 4 = 0 ∧ s' = s.endDecodeRow d)) := by
  obtain ⟨d, hd, hp, hr⟩ := State.atPosition_next h
  refine ⟨d, hd, hp, ?_⟩
  split at hr
  · exact .inl ⟨‹_›, by cases hr; rfl⟩
  · exact .inr ⟨by omega, by cases hr; rfl⟩

/-- PAD, where it gives a next state (R106). -/
theorem execPad_next {v : Half} {s s' : State} (h : execPad v s = .next s') :
    ∃ d, s.engine = .decoding d ∧ d.pos = .padding ∧ s' = s.endDecodeRow d := by
  obtain ⟨d, hd, hp, hr⟩ := State.atPosition_next h
  exact ⟨d, hd, hp, by cases hr; rfl⟩

/-- Everything a token can leave behind: the command is over, or the DECODE goes on at the same cursor with the same
operands. -/
theorem execToken_next {i : Instr} {s s' : State} {d : DecodeWork} (hd : s.engine = .decoding d)
    (h : execToken i s = .next s') :
    s'.engine = .idle ∨ ∃ d', s'.engine = .decoding d' ∧ d'.cur = d.cur ∧ s'.operands = s.operands := by
  have row : ∀ d0 : DecodeWork, s.engine = .decoding d0 → (s.endDecodeRow d0).engine = .idle ∨
      ∃ d', (s.endDecodeRow d0).engine = .decoding d' ∧ d'.cur = d.cur ∧
        (s.endDecodeRow d0).operands = s.operands := by
    intro d0 h0
    obtain rfl : d = d0 := by rw [hd] at h0; cases h0; rfl
    rcases State.endDecodeRow_cases s d with ⟨-, he⟩ | ⟨-, he⟩
    · rw [he]; exact .inr ⟨_, rfl, rfl, rfl⟩
    · rw [he]; exact .inl rfl
  cases i <;> simp only [execToken] at h
  case eor =>
    obtain ⟨d0, h0, -, ⟨-, rfl⟩ | ⟨-, rfl⟩⟩ := execEor_next h
    · obtain rfl : d = d0 := by rw [hd] at h0; cases h0; rfl
      exact .inr ⟨_, rfl, rfl, rfl⟩
    · exact row d0 h0
  case zrun => obtain ⟨d0, h0, -, rfl⟩ := execZrun_next h; exact .inr ⟨d, hd, rfl, rfl⟩
  case run =>
    obtain ⟨d0, h0, -, ⟨-, rfl⟩ | ⟨-, -, rfl⟩⟩ := execRun_next h
    · exact .inl rfl
    · obtain rfl : d = d0 := by rw [hd] at h0; cases h0; rfl
      exact .inr ⟨_, rfl, rfl, rfl⟩
  case pad => obtain ⟨d0, h0, -, rfl⟩ := execPad_next h; exact row d0 h0
  all_goals cases h

/-- Everything one word of the stream can leave behind: the command is over, or the cursor has moved on by 2 inside
the stream (R101, R109). -/
theorem State.tokenStep_next {s s' : State} {d : DecodeWork} (h : s.tokenStep d = .next s') :
    s'.engine = .idle ∨
      (d.cur + 2 ≤ s.operands.len ∧
        ∃ d', s'.engine = .decoding d' ∧ d'.cur = d.cur + 2 ∧ s'.operands = s.operands) := by
  unfold State.tokenStep at h
  split at h
  · cases h; exact .inl rfl
  · split at h
    · cases h
    · exact (execToken_next (d := { d with cur := d.cur + 2 }) rfl h).imp id fun h => ⟨by omega, h⟩

/-- With enough words of fuel a DECODE in progress comes to its completion (R109). -/
theorem runTokens_ends {n : Nat} {s s' : State} {d : DecodeWork} (hd : s.engine = .decoding d)
    (hn : s.operands.tokenFuel d ≤ n) (h : runTokens n s = .next s') : s'.engine = .idle := by
  induction n generalizing s d with
  | zero => simp [Operands.tokenFuel] at hn
  | succ n ih =>
    rw [runTokens, hd] at h
    dsimp only at h
    split at h
    · rename_i s1 h1
      rcases State.tokenStep_next h1 with he | ⟨hl, d1, he, hc, ho⟩
      · cases n <;> simp [runTokens, he] at h <;> exact h ▸ he
      · refine ih he ?_ h
        simp only [Operands.tokenFuel, ho, hc] at hn ⊢
        omega
    · cases h
    · cases h

/-- More fuel than the stream has words changes nothing (R109). -/
theorem runTokens_fuel {n m : Nat} {s : State} {d : DecodeWork} (hd : s.engine = .decoding d)
    (hn : s.operands.tokenFuel d ≤ n) (hm : s.operands.tokenFuel d ≤ m) : runTokens n s = runTokens m s := by
  induction n generalizing s d m with
  | zero => simp [Operands.tokenFuel] at hn
  | succ n ih =>
    cases m with
    | zero => simp [Operands.tokenFuel] at hm
    | succ m =>
      rw [runTokens, runTokens, hd]
      dsimp only
      cases h1 : s.tokenStep d with
      | next s1 =>
        dsimp only
        rcases State.tokenStep_next h1 with he | ⟨hl, d1, he, hc, ho⟩
        · cases n <;> cases m <;> simp [runTokens, he]
        · refine ih he ?_ ?_ <;> simp only [Operands.tokenFuel, ho, hc] at hn hm ⊢ <;> omega
      | fault f => rfl
      | refused r => rfl

/-- Everything the opening of a frame does: the start check that fails, or the working state at its start (R108,
R155). -/
theorem State.openFrame_cases (s : State) :
    (∃ e, s.operands.startError .decode = some e ∧ s.openFrame = s.raiseAtStart e) ∨
    (s.operands.startError .decode = none ∧ s.openFrame = { s with engine := .decoding .start }) := by
  unfold State.openFrame
  split
  · exact .inl ⟨_, ‹_›, rfl⟩
  · exact .inr ⟨‹_›, rfl⟩

/-! ### Inside the bounds of a DECODE -/

/-- What a word of the stream never touches: the operands, the orientation, the level of `rst`, what the host has and
will do, and every byte outside the row payloads (R11, R111). -/
abbrev State.DecodeFrame (s t : State) : Prop :=
  t.operands = s.operands ∧ t.status.bottomUp = s.status.bottomUp ∧ t.rst = s.rst ∧ t.agenda = s.agenda ∧
    t.hostData = s.hostData ∧ Memory.wf t.mem ∧
    ∀ a, s.operands.inPixels .decode a = false → Memory.read t.mem a = Memory.read s.mem a

/-- The engine is idle, DONE is set, and the status registers go together (R153, R16). -/
abbrev State.Ended (t : State) : Prop := t.engine = .idle ∧ t.status.done = true ∧ t.statusOk

theorem State.finish_ended (s : State) (c : CmdOutcome) (h : c.err ≠ .noError → c.err.raisedByBlock = true) :
    (s.finish c).Ended := by
  refine ⟨rfl, rfl, by simp [State.busy, State.finish], fun _ => rfl, ?_⟩
  by_cases hc : c.err = .noError
  · simp [State.finish, CmdOutcome.report, hc]
  · simp [State.finish, CmdOutcome.report, hc, h hc]

/-- An error while rows are decoded ends the command and stays in the row payloads (R177). -/
theorem State.raiseInRows_decode {s : State} (hm : Memory.wf s.mem) (r : Raise) (h : r.err.raisedByBlock = true) :
    s.DecodeFrame (s.raiseInRows .decode r) ∧ (s.raiseInRows .decode r).Ended := by
  refine ⟨⟨rfl, rfl, rfl, rfl, rfl, Memory.wf_unspecify hm, fun a ha => ?_⟩, State.finish_ended _ _ fun _ => h⟩
  rw [State.raiseInRows_mem, Memory.read_unspecify hm, if_neg]
  simp [Operands.writeSet, ha]

/-- The end of a row inside the bounds (R107, R108). -/
theorem State.endDecodeRow_spec {s : State} {d : DecodeWork} (hm : Memory.wf s.mem)
    (hs : s.operands.startError .decode = none) (hc : d.cur ≤ s.operands.len) (h4 : d.cur % 4 = 0) :
    s.DecodeFrame (s.endDecodeRow d) ∧
      ((s.endDecodeRow d).Ended ∨
        ∃ d', (s.endDecodeRow d).engine = .decoding d' ∧ d'.ok s.operands ∧ d'.cur = d.cur ∧
          (s.endDecodeRow d).status = s.status ∧ (s.endDecodeRow d).report = s.report) := by
  rcases State.endDecodeRow_cases s d with ⟨hk, he⟩ | ⟨-, he⟩ <;> rw [he]
  · refine ⟨⟨rfl, rfl, rfl, rfl, rfl, hm, fun _ _ => rfl⟩, .inr ⟨_, rfl, ?_, rfl, rfl, rfl⟩⟩
    exact ⟨hs, hk, Nat.zero_le _, hc, by dsimp only; omega, h4, le_rfl, by simp⟩
  · exact ⟨⟨rfl, rfl, rfl, rfl, rfl, hm, fun _ _ => rfl⟩, .inl (State.finish_ended _ _ fun h => absurd rfl h)⟩

/-- A run that fits leaves every byte outside the row payloads (R103, R111). -/
theorem Memory.read_run {m : Memory} {o : Operands} {k x n : Nat} (v : Half) (hm : Memory.wf m)
    (hs : o.startError .decode = none) (hk : k < o.rows) (hx : x + n ≤ o.cols) {a : Nat}
    (ha : o.inPixels .decode a = false) :
    Memory.read (Memory.writePixels m (o.rowaddr k + 2 * x) v n) a = Memory.read m a := by
  have hc := (Operands.startError_eq_none.mp hs).2.1
  have he := Operands.rowaddr_end_le hc hk
  have hp : o.payload .decode = o.cols * 2 := rfl
  refine Memory.read_writePixels_outside v hm (by omega) ?_
  by_contra hin
  refine absurd ((Operands.inPixels_eq_true hc a).mpr ⟨_, Operands.rowIndex_lt hk, ?_⟩) (by simp [ha])
  simp only [Operands.rowaddr] at hin
  omega

/-- The words a position can hold. -/
theorem decodeAt_cases (pos : Position) (t : Half) :
    (pos = .padding ∧ decodeAt pos t = .pad t) ∨
      (pos = .item ∧ (decodeAt pos t = .eor ∨ (∃ r g b, decodeAt pos t = .zrun r g b) ∨
        ∃ r g b n, decodeAt pos t = .run r g b n)) := by
  cases pos with
  | padding => exact .inl ⟨rfl, rfl⟩
  | item =>
    refine .inr ⟨rfl, ?_⟩
    simp only [decodeAt]
    unfold decodeItem
    split
    · exact .inl rfl
    · split
      · exact .inr (.inl ⟨_, _, _, rfl⟩)
      · exact .inr (.inr ⟨_, _, _, _, rfl⟩)

/-- What a word of the stream leaves inside the bounds: the command is over, or the decoder is inside the bounds at
the same cursor. -/
abbrev State.TokenEffect (s t : State) (cur : Nat) : Prop :=
  s.DecodeFrame t ∧ (t.Ended ∨ ∃ d', t.engine = .decoding d' ∧ d'.ok s.operands ∧ d'.cur = cur ∧
    t.status = s.status ∧ t.report = s.report)

/-- Every fetched word has its effect inside the bounds (R102 to R108, R111). -/
theorem execToken_spec {s : State} {d : DecodeWork} (t : Half) (hm : Memory.wf s.mem) (hd : s.engine = .decoding d)
    (hs : s.operands.startError .decode = none) (hk : d.k < s.operands.rows) (hx : d.xpos ≤ s.operands.cols)
    (hl : d.cur ≤ s.operands.len) (he : d.cur % 2 = 0) (h4 : d.c0 % 4 = 0) (hc0 : d.c0 + 2 ≤ d.cur)
    (hp : d.pos = .padding → d.cur % 4 = 0) :
    ∃ s', execToken (decodeAt d.pos t) s = .next s' ∧ s.TokenEffect s' d.cur := by
  have hcf := (Operands.startError_eq_none.mp hs).2.1
  have hrow := Operands.rowaddr_end_le hcf hk
  have hpay : s.operands.payload .decode = s.operands.cols * 2 := rfl
  rcases decodeAt_cases d.pos t with ⟨hpos, hi⟩ | ⟨hpos, hi | ⟨r, g, b, hi⟩ | ⟨r, g, b, n, hi⟩⟩ <;>
    rw [hi, execToken]
  · rw [execPad, ← hpos, State.atPosition_of_decoding hd]
    exact ⟨_, rfl, State.endDecodeRow_spec hm hs hl (hp hpos)⟩
  · rw [execEor, ← hpos, State.atPosition_of_decoding hd]
    split
    · exact ⟨_, rfl, ⟨rfl, rfl, rfl, rfl, rfl, hm, fun _ _ => rfl⟩, .inr ⟨{ d with pos := .padding }, rfl,
        ⟨hs, hk, hx, hl, he, h4, by dsimp only; omega, fun _ => by dsimp only; omega⟩, rfl, rfl, rfl⟩⟩
    · exact ⟨_, rfl, State.endDecodeRow_spec hm hs hl (by omega)⟩
  · rw [execZrun, ← hpos, State.atPosition_of_decoding hd]
    exact ⟨_, rfl, ⟨rfl, rfl, rfl, rfl, rfl, hm, fun _ _ => rfl⟩, .inr ⟨d, hd,
      ⟨hs, hk, hx, hl, he, h4, by omega, by simp [hpos]⟩, rfl, rfl, rfl⟩⟩
  · rw [execRun, ← hpos, State.atPosition_of_decoding hd]
    split
    · obtain ⟨h1, h2⟩ := State.raiseInRows_decode hm { err := .rowOverrun, row := d.k, off := d.cur - 2 } rfl
      exact ⟨_, rfl, h1, .inl h2⟩
    · rw [if_neg (by omega)]
      refine ⟨_, rfl, ⟨rfl, rfl, rfl, rfl, rfl, Memory.wf_writePixels _ hm (by omega), fun a ha =>
        Memory.read_run _ hm hs hk (by omega) ha⟩, .inr ⟨{ d with xpos := d.xpos + n.toNat }, rfl,
        ⟨hs, hk, by dsimp only; omega, hl, he, h4, by dsimp only; omega, by simp [hpos]⟩, rfl, rfl, rfl⟩⟩

/-- Everything one word of the stream does inside the bounds: it never stops the machine; it ends the command, or
leaves a decoder inside the bounds with the cursor moved on by 2 (R101 to R108, R111). -/
theorem State.tokenStep_spec {s : State} {d : DecodeWork} (hm : Memory.wf s.mem) (hok : d.ok s.operands) :
    ∃ t, s.tokenStep d = .next t ∧ s.TokenEffect t (d.cur + 2) := by
  obtain ⟨hs, hk, hx, hcl, he, h4, hc0, hp⟩ := hok
  have hsend := ((Operands.badConfig_eq_false.mp (Operands.startError_eq_none.mp hs).2.1).2.2 (by decide)).1
  unfold State.tokenStep
  split
  · obtain ⟨h1, h2⟩ := State.raiseInRows_decode hm
      { err := .insufficientPixelData, row := d.k, off := d.cur } rfl
    exact ⟨_, rfl, h1, .inl h2⟩
  · rw [if_neg (by simp only [Operands.send] at hsend; omega)]
    exact execToken_spec (s := { s with engine := .decoding { d with cur := d.cur + 2 } })
      (d := { d with cur := d.cur + 2 }) _ hm rfl hs hk hx (by dsimp only; omega) (by dsimp only; omega) h4
      (by dsimp only; omega) fun h => by have := hp h; dsimp only; omega

/-- A DECODE inside its bounds runs to its completion, whatever the stream (R109, R111, R153). -/
theorem runTokens_spec {n : Nat} {s : State} {d : DecodeWork} (hm : Memory.wf s.mem) (hd : s.engine = .decoding d)
    (hok : d.ok s.operands) (hn : s.operands.tokenFuel d ≤ n) :
    ∃ t, runTokens n s = .next t ∧ s.DecodeFrame t ∧ t.Ended := by
  induction n generalizing s d with
  | zero => simp [Operands.tokenFuel] at hn
  | succ n ih =>
    rw [runTokens, hd]
    dsimp only
    obtain ⟨t, ht, hf, h⟩ := State.tokenStep_spec hm hok
    have hnx := State.tokenStep_next ht
    rw [ht]
    dsimp only
    rcases h with h | ⟨d', he, hok', hc, -, -⟩
    · exact ⟨t, by cases n <;> simp [runTokens, h.1], hf, h⟩
    · obtain ⟨h1, h2, h3, h4, h5, h6, h7⟩ := hf
      obtain ⟨u, hu, ⟨u1, u2, u3, u4, u5, u6, u7⟩, hend⟩ := ih h6 he (h1 ▸ hok') (by
        rcases hnx with hi | ⟨hl, -⟩
        · rw [hi] at he; cases he
        · simp only [Operands.tokenFuel, h1, hc] at hn ⊢
          omega)
      exact ⟨u, hu, ⟨u1.trans h1, u2.trans h2, u3.trans h3, u4.trans h4, u5.trans h5, u6, fun a ha =>
        (u7 a (by rw [h1]; exact ha)).trans (h7 a ha)⟩, hend⟩

end Sys2Proof.Machine
end

