-- ==== Sys2Proof/Laws/Encoder.lean ====
section
/-! SUPPORT. What the serializer and the run finder do (42_nibble_rle_encoder.md R123, R124;
43_run_length_bitstream_serializer.md R141, R142). -/

namespace Sys2Proof.Machine

/-- Everything `put16` can do (R141). -/
theorem put16_cases (sink : Sink) (k : Nat) (v : Half) (z : Serializer) :
    (sink.cap < z.cur + 2 ∧ put16 sink k v z = .error { err := .allocationFailure, row := k, off := z.cur }) ∨
    (z.cur + 2 ≤ sink.cap ∧ put16 sink k v z = .ok
      { cur := z.cur + 2, c0 := z.c0,
        mem := if sink.writing then Memory.write16 z.mem (sink.base + z.cur) v else z.mem }) := by
  unfold put16
  split
  · exact .inl ⟨by omega, rfl⟩
  · exact .inr ⟨by omega, rfl⟩

/-- `put16` where it succeeds. -/
theorem put16_ok {sink : Sink} {k : Nat} {v : Half} {z z' : Serializer} (h : put16 sink k v z = .ok z') :
    z.cur + 2 ≤ sink.cap ∧ z' =
      { cur := z.cur + 2, c0 := z.c0,
        mem := if sink.writing then Memory.write16 z.mem (sink.base + z.cur) v else z.mem } := by
  rcases put16_cases sink k v z with ⟨-, he⟩ | ⟨hc, he⟩
  · rw [he] at h; cases h
  · rw [he] at h; cases h; exact ⟨hc, rfl⟩

/-- `put16` where it raises. -/
theorem put16_error {sink : Sink} {k : Nat} {v : Half} {z : Serializer} {e : Raise} (h : put16 sink k v z = .error e) :
    sink.cap < z.cur + 2 ∧ e = { err := .allocationFailure, row := k, off := z.cur } := by
  rcases put16_cases sink k v z with ⟨hc, he⟩ | ⟨-, he⟩
  · rw [he] at h; cases h; exact ⟨hc, rfl⟩
  · rw [he] at h; cases h

/-- The words of a list laid down one after another by `put16`. -/
def putAll (sink : Sink) (k : Nat) (z : Serializer) : List Half → Except Raise Serializer
  | [] => .ok z
  | v :: rest =>
    match put16 sink k v z with
    | .error e => .error e
    | .ok z1 => putAll sink k z1 rest

theorem putAll_append (sink : Sink) (k : Nat) (z : Serializer) (l1 l2 : List Half) :
    putAll sink k z (l1 ++ l2) =
      match putAll sink k z l1 with
      | .error e => .error e
      | .ok z1 => putAll sink k z1 l2 := by
  induction l1 generalizing z with
  | nil => rfl
  | cons v l ih =>
    simp only [List.cons_append, putAll]
    cases put16 sink k v z with
    | error e => rfl
    | ok z1 => exact ih z1

/-- What the words of a list leave where they all fit. -/
theorem putAll_ok {sink : Sink} {k : Nat} {z z' : Serializer} {l : List Half} (h : putAll sink k z l = .ok z') :
    z'.cur = z.cur + 2 * l.length ∧ z'.c0 = z.c0 := by
  induction l generalizing z with
  | nil => cases h; simp
  | cons v l ih =>
    simp only [putAll] at h
    split at h
    · cases h
    · obtain ⟨-, rfl⟩ := put16_ok ‹_›
      have := ih h
      simp only [List.length_cons] at this ⊢
      omega

/-- The words of a list fit exactly when their bytes do. -/
theorem putAll_fits {sink : Sink} {k : Nat} {z : Serializer} {l : List Half}
    (h : z.cur + 2 * l.length ≤ sink.cap) : ∃ z', putAll sink k z l = .ok z' := by
  induction l generalizing z with
  | nil => exact ⟨z, rfl⟩
  | cons v l ih =>
    simp only [List.length_cons] at h
    rcases put16_cases sink k v z with ⟨hc, -⟩ | ⟨-, he⟩
    · omega
    · simp only [putAll, he]
      exact ih (by dsimp only; omega)

/-- The run items of a row are its tokens laid down one after another (R140). -/
theorem serializeItems_runs (sink : Sink) (k : Nat) (z : Serializer) (tokens : List Half) (rest : List Item) :
    serializeItems sink k z (tokens.map Item.run ++ rest) =
      match putAll sink k z tokens with
      | .error e => .error e
      | .ok z1 => serializeItems sink k z1 rest := by
  induction tokens generalizing z with
  | nil => rfl
  | cons t l ih =>
    simp only [List.map_cons, List.cons_append, serializeItems, serializeItem, putAll]
    cases put16 sink k t z with
    | error e => rfl
    | ok z1 => exact ih z1

/-- The channel items of a row lay down the words of the row, where the row starts at the cursor (R142, R69). -/
theorem serializeItems_row (sink : Sink) (k : Nat) (z : Serializer) (pixels : List Half) (h : z.c0 = z.cur) :
    serializeItems sink k z (rowItems pixels) = putAll sink k z (rowWords pixels) := by
  rw [rowItems, serializeItems_runs, rowWords, List.append_assoc, putAll_append]
  cases h1 : putAll sink k z (rowTokens pixels) with
  | error e => rfl
  | ok z1 =>
    obtain ⟨hc, h0⟩ := putAll_ok h1
    simp only [serializeItems, serializeItem, endrow, List.singleton_append, putAll]
    cases h2 : put16 sink k 0#16 z1 with
    | error e => rfl
    | ok z2 =>
      obtain ⟨-, rfl⟩ := put16_ok h2
      dsimp only
      have hpad : ((z1.cur + 2 - z1.c0) % 4 ≠ 0) ↔ (((rowTokens pixels).length + 1) % 2 = 1) := by omega
      by_cases hp : ((rowTokens pixels).length + 1) % 2 = 1
      · rw [if_pos (hpad.mpr hp), if_pos hp, putAll]
        cases put16 sink k 0#16 _ <;> rfl
      · rw [if_neg (mt hpad.mp hp), if_neg hp, putAll]

/-- The tokens of a row are one for each run. -/
@[simp] theorem rowTokens_length (pixels : List Half) : (rowTokens pixels).length = (rowRuns pixels).length := by
  simp [rowTokens]

@[simp] theorem rowPixels_length (m : Memory) (a w : Nat) : (rowPixels m a w).length = w := by simp [rowPixels]

/-- A run never grows past `MAX_RUN` and never shrinks (R124). -/
theorem growRuns_counts {first : Half} {n : Nat} (h1 : 1 ≤ n) (h2 : n ≤ 15) (rest : List Half) :
    ∀ r ∈ growRuns first n rest, 1 ≤ r.2 ∧ r.2 ≤ 15 := by
  induction rest generalizing first n with
  | nil => intro r hr; simp only [growRuns, List.mem_singleton] at hr; subst hr; exact ⟨h1, h2⟩
  | cons p rest ih =>
    intro r hr
    rw [growRuns] at hr
    split at hr
    · rename_i hg
      exact ih (by omega) (by have := hg.1; simp only [Config.maxRun] at this; omega) r hr
    · rcases List.mem_cons.mp hr with rfl | hr
      · exact ⟨h1, h2⟩
      · exact ih le_rfl (by omega) r hr

/-- The head of the runs being grown is the run of the first pixel. -/
theorem growRuns_ne_nil (first : Half) (n : Nat) (rest : List Half) : growRuns first n rest ≠ [] := by
  induction rest generalizing first n with
  | nil => simp [growRuns]
  | cons p rest ih => rw [growRuns]; split <;> simp [ih]

/-! ### The words in memory, and the rows of a frame -/

/-- The words of a list where they all fit and the pass writes: they stand from the cursor on, nothing else moves
(R141, R143). -/
theorem putAll_mem {sink : Sink} {k : Nat} {z z' : Serializer} {l : List Half} (hw : sink.writing = true)
    (hm : Memory.wf z.mem) (hs : sink.base + sink.cap ≤ 2 ^ 32) (h : putAll sink k z l = .ok z') :
    Memory.wf z'.mem ∧ Memory.holds z'.mem (sink.base + z.cur) l ∧
      ∀ a, (a < sink.base + z.cur ∨ sink.base + z'.cur ≤ a) → Memory.read z'.mem a = Memory.read z.mem a := by
  induction l generalizing z with
  | nil => cases h; exact ⟨hm, fun i v hv => by simp at hv, fun _ _ => rfl⟩
  | cons v l ih =>
    simp only [putAll] at h
    split at h
    · cases h
    · rename_i z1 h1
      obtain ⟨hc, rfl⟩ := put16_ok h1
      have hr := Memory.read_write16 hm (a := sink.base + z.cur) (by omega) v
      obtain ⟨i1, i2, i3⟩ := ih (by dsimp only; rw [if_pos hw]; exact Memory.wf_write16 v hm (by omega)) h
      dsimp only at i2 i3
      rw [if_pos hw] at i3
      have hl := (putAll_ok h).1
      dsimp only at hl
      refine ⟨i1, fun i w hiw => ?_, fun a ha => ?_⟩
      · cases i with
        | zero =>
          obtain rfl : v = w := by simpa using hiw
          rw [Nat.mul_zero, Nat.add_zero, Memory.read16, i3 _ (by omega), i3 _ (by omega), hr, hr]
          simp [half_of_bytes]
        | succ i =>
          rw [← i2 i w (by simpa using hiw)]
          congr 1
          omega
      · rw [i3 a (by omega), hr, if_neg (by omega), if_neg (by omega)]

/-- A pass that does not write leaves memory (R126). -/
theorem putAll_silent {sink : Sink} {k : Nat} {z z' : Serializer} {l : List Half} (hw : sink.writing = false)
    (h : putAll sink k z l = .ok z') : z'.mem = z.mem := by
  induction l generalizing z with
  | nil => cases h; rfl
  | cons v l ih =>
    simp only [putAll] at h
    split at h
    · cases h
    · obtain ⟨-, rfl⟩ := put16_ok ‹_›
      simpa [hw] using ih h

/-- The words of a list where they do not all fit: the error is at the last word boundary inside the capacity. -/
theorem putAll_error {sink : Sink} {k : Nat} {z : Serializer} {l : List Half} {e : Raise}
    (h : putAll sink k z l = .error e) (hz : z.cur % 2 = 0) (hc : z.cur ≤ sink.cap) :
    sink.cap < z.cur + 2 * l.length ∧ e = { err := .allocationFailure, row := k, off := 2 * (sink.cap / 2) } := by
  induction l generalizing z with
  | nil => cases h
  | cons v l ih =>
    simp only [putAll] at h
    split at h
    · cases h
      obtain ⟨hlt, rfl⟩ := put16_error ‹_›
      have : z.cur = 2 * (sink.cap / 2) := by omega
      rw [← this, List.length_cons]
      exact ⟨by omega, rfl⟩
    · obtain ⟨hle, rfl⟩ := put16_ok ‹_›
      have := ih h (by dsimp only; omega) hle
      simp only [List.length_cons] at this ⊢
      exact ⟨by omega, this.2⟩

theorem putAll_cap {sink : Sink} {k : Nat} {z z' : Serializer} {l : List Half} (hc : z.cur ≤ sink.cap)
    (h : putAll sink k z l = .ok z') : z'.cur ≤ sink.cap := by
  induction l generalizing z with
  | nil => cases h; exact hc
  | cons v l ih =>
    simp only [putAll] at h
    split at h
    · cases h
    · obtain ⟨hle, rfl⟩ := put16_ok ‹_›
      exact ih hle h

@[simp] theorem rowsWords_zero (o : Operands) (m : Memory) : rowsWords o m 0 = [] := rfl

theorem rowsWords_succ (o : Operands) (m : Memory) (n : Nat) :
    rowsWords o m (n + 1) = rowsWords o m n ++ rowWords (rowPixels m (o.rowaddr n) o.cols) := by
  simp [rowsWords, List.range_succ]

theorem rowsWords_add (o : Operands) (m : Memory) (k n : Nat) : ∃ l, rowsWords o m (k + n) = rowsWords o m k ++ l := by
  induction n with
  | zero => exact ⟨[], by simp⟩
  | succ n ih =>
    obtain ⟨l, hl⟩ := ih
    exact ⟨l ++ rowWords (rowPixels m (o.rowaddr (k + n)) o.cols), by
      rw [← Nat.add_assoc, rowsWords_succ, hl, List.append_assoc]⟩

/-- Everything the rows of a frame can do, from stream row `k` on: they all fit, or the first row that does not fit
raises AllocationFailure (R125, R126, R175). -/
theorem encodeRows_cases {src : Memory} {o : Operands} {sink : Sink} {z : Serializer} {k : Nat} (n : Nat)
    (hz : z.cur = 2 * (rowsWords o src k).length) (hle : z.cur ≤ sink.cap) :
    (2 * (rowsWords o src (k + n)).length ≤ sink.cap ∧
      ∃ z', encodeRows src o sink z k n = .ok z' ∧ z'.cur = 2 * (rowsWords o src (k + n)).length ∧
        (sink.writing = false → z'.mem = z.mem) ∧
        (sink.writing = true → Memory.wf z.mem → sink.base + sink.cap ≤ 2 ^ 32 →
          Memory.wf z'.mem ∧
          (∀ i v, z.cur ≤ 2 * i → (rowsWords o src (k + n))[i]? = some v →
            Memory.read16 z'.mem (sink.base + 2 * i) = v) ∧
          ∀ a, (a < sink.base + z.cur ∨ sink.base + z'.cur ≤ a) → Memory.read z'.mem a = Memory.read z.mem a)) ∨
    (∃ j, k ≤ j ∧ j < k + n ∧ 2 * (rowsWords o src j).length ≤ sink.cap ∧
      sink.cap < 2 * (rowsWords o src (j + 1)).length ∧
      encodeRows src o sink z k n =
        .error { err := .allocationFailure, row := j, off := 2 * (sink.cap / 2) }) := by
  induction n generalizing k z with
  | zero =>
    refine .inl ⟨by rw [Nat.add_zero, ← hz]; exact hle, z, rfl, hz, fun _ => rfl, fun _ hm _ =>
      ⟨hm, fun i v hi hv => ?_, fun _ _ => rfl⟩⟩
    have := (List.getElem?_eq_some_iff.mp hv).1
    rw [Nat.add_zero] at this
    omega
  | succ n ih =>
    have hrow := serializeItems_row sink k { z with c0 := z.cur } (rowPixels src (o.rowaddr k) o.cols) rfl
    have hlen := congrArg List.length (rowsWords_succ o src k)
    rw [List.length_append] at hlen
    simp only [encodeRows, hrow]
    cases hp : putAll sink k { z with c0 := z.cur } (rowWords (rowPixels src (o.rowaddr k) o.cols)) with
    | error e =>
      obtain ⟨h1, rfl⟩ := putAll_error hp (by dsimp only; omega) hle
      dsimp only at h1
      exact .inr ⟨k, le_rfl, by omega, by omega, by omega, rfl⟩
    | ok z1 =>
      have hc := (putAll_ok hp).1
      dsimp only at hc
      have hz1 : z1.cur = 2 * (rowsWords o src (k + 1)).length := by omega
      rw [show k + (n + 1) = k + 1 + n by omega]
      rcases ih hz1 (putAll_cap (z := { z with c0 := z.cur }) hle hp) with ⟨g1, z', g2, g3, g4, g5⟩ | ⟨j, g1, g2, g3, g4, g5⟩
      · refine .inl ⟨g1, z', g2, g3, fun hw =>
          (g4 hw).trans (putAll_silent (z := { z with c0 := z.cur }) hw hp), fun hw hm hs => ?_⟩
        obtain ⟨p1, p2, p3⟩ := putAll_mem (z := { z with c0 := z.cur }) hw hm hs hp
        obtain ⟨r1, r2, r3⟩ := g5 hw p1 hs
        refine ⟨r1, fun i v hi hv => ?_, fun a ha => ?_⟩
        · by_cases h2 : z1.cur ≤ 2 * i
          · exact r2 i v h2 hv
          · obtain ⟨l, hl⟩ := rowsWords_add o src (k + 1) n
            rw [hl, List.getElem?_append_left (by omega), rowsWords_succ,
              List.getElem?_append_right (by omega)] at hv
            have := p2 _ v hv
            dsimp only at this
            rw [show sink.base + z.cur + 2 * (i - (rowsWords o src k).length) = sink.base + 2 * i by omega] at this
            rw [Memory.read16, r3 _ (by omega), r3 _ (by omega)]
            exact this
        · obtain ⟨l, hl⟩ := rowsWords_add o src (k + 1) n
          have hl := congrArg List.length hl
          rw [List.length_append] at hl
          rw [r3 a (by omega)]
          exact p3 a (by dsimp only; omega)
      · exact .inr ⟨j, by omega, by omega, g3, g4, g5⟩

end Sys2Proof.Machine
end

