-- ==== Sys2Proof/Laws/Encoding.lean ====
section
/-! SUPPORT. The small facts of the encodings: the bits of stored bytes, the fields of a token and of a reserved command
word, and the cases of a value written to CMD (30_encoding.md R60, R61, R66, R67). -/

namespace Sys2Proof

/-- The bits of two stored bytes. -/
theorem halfOfBytes_getLsbD (a b : Byte) (i : Nat) :
    (halfOfBytes a b).getLsbD i = if i < 8 then a.getLsbD i else b.getLsbD (i - 8) := by
  exact BitVec.getLsbD_append

/-- The bits of a token word. -/
theorem tokenWord_getLsbD (r g b n : BitVec 4) (i : Nat) :
    (tokenWord r g b n).getLsbD i =
      if i < 4 then n.getLsbD i
      else if i < 8 then b.getLsbD (i - 4)
      else if i < 12 then g.getLsbD (i - 8) else r.getLsbD (i - 12) := by
  have h : (tokenWord r g b n).getLsbD i = ((r ++ g ++ b) ++ n).getLsbD i := rfl
  rw [h, BitVec.getLsbD_append, BitVec.getLsbD_append, BitVec.getLsbD_append]
  by_cases h1 : i < 4
  · simp [h1]
  · by_cases h2 : i < 8
    · simp [h1, h2, show i - 4 < 4 by omega]
    · by_cases h3 : i < 12
      · simp [h1, h2, h3, show ¬i - 4 < 4 by omega, show i - 8 < 4 by omega, show i - 4 - 4 = i - 8 by omega]
      · simp [h1, h2, h3, show ¬i - 4 < 4 by omega, show ¬i - 4 - 4 < 4 by omega,
          show i - 4 - 4 - 4 = i - 12 by omega]

/-- The bits of four stored bytes. -/
theorem wordOfBytes_getLsbD (a b c d : Byte) (i : Nat) :
    (wordOfBytes a b c d).getLsbD i =
      if i < 8 then a.getLsbD i
      else if i < 16 then b.getLsbD (i - 8)
      else if i < 24 then c.getLsbD (i - 16) else d.getLsbD (i - 24) := by
  have h : (wordOfBytes a b c d).getLsbD i = ((d ++ c ++ b) ++ a).getLsbD i := rfl
  rw [h, BitVec.getLsbD_append, BitVec.getLsbD_append, BitVec.getLsbD_append]
  by_cases h1 : i < 8
  · simp [h1]
  · by_cases h2 : i < 16
    · simp [h1, h2, show i - 8 < 8 by omega]
    · by_cases h3 : i < 24
      · simp [h1, h2, h3, show ¬i - 8 < 8 by omega, show i - 16 < 8 by omega, show i - 8 - 8 = i - 16 by omega]
      · simp [h1, h2, h3, show ¬i - 8 < 8 by omega, show ¬i - 8 - 8 < 8 by omega,
          show i - 8 - 8 - 8 = i - 24 by omega]

/-- The bits of a reserved word's two fields. -/
theorem reserved_getLsbD (zero : BitVec 28) (op : BitVec 4) (i : Nat) :
    (zero ++ op : Word).getLsbD i = if i < 4 then op.getLsbD i else zero.getLsbD (i - 4) := by
  have h : (zero ++ op : Word).getLsbD i = (zero ++ op).getLsbD i := rfl
  rw [h, BitVec.getLsbD_append]

@[simp] theorem halfOfBytes_bytes (v : Half) : halfOfBytes (v.extractLsb' 0 8) (v.extractLsb' 8 8) = v := by
  apply BitVec.eq_of_getLsbD_eq
  intro i hi
  rw [halfOfBytes_getLsbD]
  by_cases h : i < 8
  · simp [h]
  · simp [h, show i - 8 < 8 by omega, show 8 + (i - 8) = i by omega]

@[simp] theorem bytesOfHalf_bytes (a b : Byte) : bytesOfHalf (halfOfBytes a b) = [a, b] := by
  unfold bytesOfHalf
  congr 1
  · apply BitVec.eq_of_getLsbD_eq; intro i hi; simp [halfOfBytes_getLsbD, hi]
  congr 1
  · apply BitVec.eq_of_getLsbD_eq; intro i hi; simp [halfOfBytes_getLsbD, hi]

@[simp] theorem wordOfBytes_bytes (v : Word) : wordOfBytes (v.extractLsb' 0 8) (v.extractLsb' 8 8)
    (v.extractLsb' 16 8) (v.extractLsb' 24 8) = v := by
  apply BitVec.eq_of_getLsbD_eq
  intro i hi
  rw [wordOfBytes_getLsbD]
  by_cases h1 : i < 8
  · simp [h1]
  · by_cases h2 : i < 16
    · simp [h1, h2, show i - 8 < 8 by omega, show 8 + (i - 8) = i by omega]
    · by_cases h3 : i < 24
      · simp [h1, h2, h3, show i - 16 < 8 by omega, show 16 + (i - 16) = i by omega]
      · simp [h1, h2, h3, show i - 24 < 8 by omega, show 24 + (i - 24) = i by omega]

@[simp] theorem bytesOfWord_bytes (a b c d : Byte) : bytesOfWord (wordOfBytes a b c d) = [a, b, c, d] := by
  unfold bytesOfWord
  congr 1
  · apply BitVec.eq_of_getLsbD_eq; intro i hi; simp [wordOfBytes_getLsbD, hi]
  congr 1
  · apply BitVec.eq_of_getLsbD_eq; intro i hi
    simp [wordOfBytes_getLsbD, hi, show 8 + i < 16 by omega]
  congr 1
  · apply BitVec.eq_of_getLsbD_eq; intro i hi
    simp [wordOfBytes_getLsbD, hi, show ¬16 + i < 8 by omega, show 16 + i < 24 by omega]
  congr 1
  · apply BitVec.eq_of_getLsbD_eq; intro i hi
    simp [wordOfBytes_getLsbD, hi, show ¬24 + i < 8 by omega, show ¬24 + i < 16 by omega]

/-- A token word is its four fields (R60). -/
@[simp] theorem tokenWord_fields (t : Half) :
    tokenWord (t.extractLsb' 12 4) (t.extractLsb' 8 4) (t.extractLsb' 4 4) (t.extractLsb' 0 4) = t := by
  apply BitVec.eq_of_getLsbD_eq
  intro i hi
  rw [tokenWord_getLsbD]
  by_cases h1 : i < 4
  · simp [h1]
  · by_cases h2 : i < 8
    · simp [h1, h2, show i - 4 < 4 by omega, show 4 + (i - 4) = i by omega]
    · by_cases h3 : i < 12
      · simp [h1, h2, h3, show i - 8 < 4 by omega, show 8 + (i - 8) = i by omega]
      · simp [h1, h2, h3, show i - 12 < 4 by omega, show 12 + (i - 12) = i by omega]

@[simp] theorem tokenWord_n (r g b n : BitVec 4) : (tokenWord r g b n).extractLsb' 0 4 = n := by
  apply BitVec.eq_of_getLsbD_eq; intro i hi; simp [tokenWord_getLsbD, hi]

@[simp] theorem tokenWord_b (r g b n : BitVec 4) : (tokenWord r g b n).extractLsb' 4 4 = b := by
  apply BitVec.eq_of_getLsbD_eq; intro i hi
  simp [tokenWord_getLsbD, hi, show 4 + i < 8 by omega]

@[simp] theorem tokenWord_g (r g b n : BitVec 4) : (tokenWord r g b n).extractLsb' 8 4 = g := by
  apply BitVec.eq_of_getLsbD_eq; intro i hi
  simp [tokenWord_getLsbD, hi, show ¬8 + i < 4 by omega, show 8 + i < 12 by omega]

@[simp] theorem tokenWord_r (r g b n : BitVec 4) : (tokenWord r g b n).extractLsb' 12 4 = r := by
  apply BitVec.eq_of_getLsbD_eq; intro i hi
  simp [tokenWord_getLsbD, hi, show ¬12 + i < 4 by omega, show ¬12 + i < 8 by omega]

/-- The sentinel is the token whose four fields are zero (R64). -/
theorem tokenWord_eq_zero {r g b n : BitVec 4} :
    tokenWord r g b n = 0#16 ↔ r = 0#4 ∧ g = 0#4 ∧ b = 0#4 ∧ n = 0#4 := by
  refine ⟨fun h => ⟨?_, ?_, ?_, ?_⟩, by rintro ⟨rfl, rfl, rfl, rfl⟩; rfl⟩
  · rw [← tokenWord_r r g b n, h]; rfl
  · rw [← tokenWord_g r g b n, h]; rfl
  · rw [← tokenWord_b r g b n, h]; rfl
  · rw [← tokenWord_n r g b n, h]; rfl

/-- The class of a token by its fields (R61). -/
theorem decodeItem_tokenWord (r g b n : BitVec 4) : decodeItem (tokenWord r g b n) =
    if n = 0#4 then (if r = 0#4 ∧ g = 0#4 ∧ b = 0#4 then .eor else .zrun r g b) else .run r g b n := by
  unfold decodeItem
  simp only [tokenWord_eq_zero, tokenWord_n, tokenWord_b, tokenWord_g, tokenWord_r]
  by_cases hn : n = 0#4 <;> by_cases h : r = 0#4 ∧ g = 0#4 ∧ b = 0#4 <;> simp_all

/-- A reserved word is its two fields (R66). -/
@[simp] theorem reserved_fields (v : Word) : (v.extractLsb' 4 28 ++ v.extractLsb' 0 4 : Word) = v := by
  apply BitVec.eq_of_getLsbD_eq
  intro i hi
  rw [reserved_getLsbD]
  by_cases h : i < 4
  · simp [h]
  · simp [h, show i - 4 < 28 by omega, show 4 + (i - 4) = i by omega]

@[simp] theorem reserved_zero (zero : BitVec 28) (op : BitVec 4) : (zero ++ op : Word).extractLsb' 4 28 = zero := by
  apply BitVec.eq_of_getLsbD_eq; intro i hi
  rw [BitVec.getLsbD_extractLsb', reserved_getLsbD]
  simp [hi]

@[simp] theorem reserved_op (zero : BitVec 28) (op : BitVec 4) : (zero ++ op : Word).extractLsb' 0 4 = op := by
  apply BitVec.eq_of_getLsbD_eq; intro i hi
  rw [BitVec.getLsbD_extractLsb', reserved_getLsbD]
  simp [hi]

/-- The value of a reserved word. -/
theorem reserved_toNat (zero : BitVec 28) (op : BitVec 4) :
    (zero ++ op : Word).toNat = zero.toNat * 16 + op.toNat := by
  have h : (zero ++ op : Word).toNat = (zero ++ op).toNat := rfl
  rw [h, BitVec.toNat_append, ← Nat.shiftLeft_add_eq_or_of_lt op.isLt, Nat.shiftLeft_eq]

/-- A reserved word's term is well formed exactly when its value is none of the six legal ones (R67). -/
theorem cmdReserved_wellFormed {zero : BitVec 28} {op : BitVec 4} :
    (Instr.cmdReserved zero op).wellFormed = true ↔ 5 < (zero ++ op : Word).toNat := by
  have hz : zero = 0#28 ↔ zero.toNat = 0 := by rw [← BitVec.toNat_inj]; rfl
  have := op.isLt
  rw [reserved_toNat]
  simp only [Instr.wellFormed, Bool.not_eq_true', Bool.and_eq_false_iff, beq_eq_false_iff_ne, ne_eq, hz,
    decide_eq_false_iff_not]
  omega

/-- Every value above 5 is a reserved command word (R67). -/
theorem decodeCommand_of_lt {v : Word} (h : 5 < v.toNat) :
    decodeCommand v = .cmdReserved (v.extractLsb' 4 28) (v.extractLsb' 0 4) := by
  unfold decodeCommand
  iterate 6 rw [if_neg (by rintro rfl; simp at h)]

/-- The seven cases of a value written to CMD (R66, R67). -/
theorem commandWord_cases (v : Word) :
    v = 0#32 ∨ v = 1#32 ∨ v = 2#32 ∨ v = 3#32 ∨ v = 4#32 ∨ v = 5#32 ∨ 5 < v.toNat := by
  simp only [← BitVec.toNat_inj, BitVec.toNat_ofNat]
  omega

end Sys2Proof
end

