-- ==== Sys2Proof/Laws/PerInstr.lean ====
section
/-! SUPPORT. Two families of lemmas, one lemma for each constructor of `Instr`: how long an encoding is, and that a
truncated one is rejected by name. -/

namespace Sys2Proof.Laws

@[simp] theorem bytesOfHalf_length (v : Half) : (bytesOfHalf v).length = 2 := rfl
@[simp] theorem bytesOfWord_length (v : Word) : (bytesOfWord v).length = 4 := rfl

/-- The encoding of an instruction is as long as its slot (R60, R66). -/
def EncodeLength.Statement (i : Instr) : Prop := (encode i).length = i.slot.width

theorem EncodeLength.clear : EncodeLength.Statement .clear := rfl
theorem EncodeLength.decode : EncodeLength.Statement .decode := rfl
theorem EncodeLength.encode : EncodeLength.Statement .encode := rfl
theorem EncodeLength.encSize : EncodeLength.Statement .encSize := rfl
theorem EncodeLength.unpack16 : EncodeLength.Statement .unpack16 := rfl
theorem EncodeLength.unpack8 : EncodeLength.Statement .unpack8 := rfl
theorem EncodeLength.cmdReserved (zero : BitVec 28) (op : BitVec 4) :
    EncodeLength.Statement (.cmdReserved zero op) := rfl
theorem EncodeLength.eor : EncodeLength.Statement .eor := rfl
theorem EncodeLength.zrun (r g b : BitVec 4) : EncodeLength.Statement (.zrun r g b) := rfl
theorem EncodeLength.run (r g b n : BitVec 4) : EncodeLength.Statement (.run r g b n) := rfl
theorem EncodeLength.pad (v : Half) : EncodeLength.Statement (.pad v) := rfl

/-- Fewer bytes than its slot takes are rejected by the slot's name for it. -/
theorem decode_short (slot : Slot) (bytes : List Byte) (h : bytes.length < slot.width) :
    Sys2Proof.decode slot bytes = .error slot.truncated := by
  cases slot <;> simp only [Slot.width] at h <;>
    rcases bytes with _ | ⟨b0, _ | ⟨b1, _ | ⟨b2, _ | ⟨b3, rest⟩⟩⟩⟩ <;>
    first
    | rfl
    | (simp only [List.length_cons] at h; omega)

/-- A truncated encoding is rejected by name. -/
def Truncated.Statement (i : Instr) : Prop :=
  ∀ n < i.slot.width, Sys2Proof.decode i.slot ((Sys2Proof.encode i).take n) = .error i.slot.truncated

theorem truncated_of_length {i : Instr} (h : EncodeLength.Statement i) : Truncated.Statement i := fun n hn =>
  decode_short _ _ (by rw [List.length_take, h]; omega)

theorem Truncated.clear : Truncated.Statement .clear := truncated_of_length EncodeLength.clear
theorem Truncated.decode : Truncated.Statement .decode := truncated_of_length EncodeLength.decode
theorem Truncated.encode : Truncated.Statement .encode := truncated_of_length EncodeLength.encode
theorem Truncated.encSize : Truncated.Statement .encSize := truncated_of_length EncodeLength.encSize
theorem Truncated.unpack16 : Truncated.Statement .unpack16 := truncated_of_length EncodeLength.unpack16
theorem Truncated.unpack8 : Truncated.Statement .unpack8 := truncated_of_length EncodeLength.unpack8
theorem Truncated.cmdReserved (zero : BitVec 28) (op : BitVec 4) : Truncated.Statement (.cmdReserved zero op) :=
  truncated_of_length (EncodeLength.cmdReserved zero op)
theorem Truncated.eor : Truncated.Statement .eor := truncated_of_length EncodeLength.eor
theorem Truncated.zrun (r g b : BitVec 4) : Truncated.Statement (.zrun r g b) := truncated_of_length (EncodeLength.zrun r g b)
theorem Truncated.run (r g b n : BitVec 4) : Truncated.Statement (.run r g b n) :=
  truncated_of_length (EncodeLength.run r g b n)
theorem Truncated.pad (v : Half) : Truncated.Statement (.pad v) := truncated_of_length (EncodeLength.pad v)

end Sys2Proof.Laws
end

