-- ==== Sys2Proof/Laws/Port.lean ====
section
/-! SUPPORT. What a command word's two transitions and the moves of the agenda can answer. -/

namespace Sys2Proof.Machine

/-- The two transitions of a command word (R14, R151, R153). -/
theorem State.command_of_idle {s : State} (h : s.engine = .idle) (v : Word) (f : State → Answer) :
    s.command v f = .next (s.start v) := by simp [State.command, h]

theorem State.command_of_pending {s : State} {v : Word} (h : s.engine = .pending v) (f : State → Answer) :
    s.command v f = f s := by simp [State.command, h]

theorem State.command_of_other {s : State} {op v : Word} (h : s.engine = .pending op) (hv : op ≠ v)
    (f : State → Answer) : s.command v f = .next s := by simp [State.command, h, hv]

theorem State.command_of_decoding {s : State} {d : DecodeWork} (h : s.engine = .decoding d) (v : Word)
    (f : State → Answer) : s.command v f = .next s := by simp [State.command, h]

/-- The start checks before the work of a unit (R155). -/
theorem State.checked_of_error {s : State} {op : MemOp} {e : ErrCode} (h : s.operands.startError op = some e)
    (f : State → Answer) : s.checked op f = .next (s.raiseAtStart e) := by simp [State.checked, h]

theorem State.checked_of_ok {s : State} {op : MemOp} (h : s.operands.startError op = none) (f : State → Answer) :
    s.checked op f = f s := by simp [State.checked, h]

/-- A step with a move placed takes that move. -/
theorem step_of_move {s : State} {m : Move} {rest : List Move} (h : s.agenda = m :: rest) :
    step s = { s with agenda := rest }.move m := by simp [step, State.takeTurn, h]

/-- A step with none placed is the engine's completion. -/
theorem step_of_none {s : State} (h : s.agenda = []) : step s = s.engineComplete := by
  simp [step, State.takeTurn, h]

/-- Where a register lies in the window (R10). -/
theorem regAt_offset (r : Reg) : regAt r.offset = some r := by cases r <;> rfl

/-- Every register can be accessed at its offset (R24). -/
theorem portAccessOk_offset (r : Reg) : portAccessOk r.offset 4 = true := by cases r <;> rfl

/-- The platform's address of a window offset selects that offset (R23). -/
theorem portOffset_of_window {offset : Nat} (h : offset < 0x40) :
    portOffset (Config.regBase.toNat + offset) = some offset := by
  rw [portOffset, if_pos (by omega)]
  simp

/-- Everything a register write can leave: nothing changed, an operand stored, or a command word's transition. -/
theorem State.portWrite_cases (s : State) (offset size : Nat) (v : Word) :
    (portAccessOk offset size = false ∧ s.portWrite offset size v = .refused .portAccess) ∨
    (portAccessOk offset size = true ∧ (s.rst = true ∨ s.busy = true) ∧ s.portWrite offset size v = .next s) ∨
    (portAccessOk offset size = true ∧ s.rst = false ∧ s.busy = false ∧ regAt offset = some .cmd ∧
      s.portWrite offset size v = exec (decodeCommand v) s) ∨
    (portAccessOk offset size = true ∧ s.rst = false ∧ s.busy = false ∧ regAt offset ≠ some .cmd ∧
      s.portWrite offset size v = .next (s.writeReg v (regAt offset))) := by
  unfold State.portWrite
  cases h1 : portAccessOk offset size <;> cases h2 : s.rst <;> cases h3 : s.busy <;>
    by_cases h4 : regAt offset = some .cmd <;> simp [h4]

/-- A write that reaches a register changes at most the operand registers. -/
theorem State.writeReg_frame (s : State) (v : Word) (r : Option Reg) :
    ∃ o, s.writeReg v r = { s with operands := o } := by
  cases r with
  | none => exact ⟨s.operands, rfl⟩
  | some r => cases r <;> exact ⟨_, rfl⟩

/-- The footprint of a running memory command is the one of its operands (R48). -/
theorem State.mayRead_of_op {s : State} {c : MemOp} (h : s.op = some c.word) (a : Nat) :
    s.mayRead a = s.operands.readSet c a := by simp [State.mayRead, h]

theorem State.mayWrite_of_op {s : State} {c : MemOp} (h : s.op = some c.word) (a : Nat) :
    s.mayWrite a = s.operands.writeSet c a := by simp [State.mayWrite, h]

/-- No command, no footprint. -/
theorem State.mayRead_of_idle {s : State} (h : s.engine = .idle) (a : Nat) : s.mayRead a = false := by
  simp [State.mayRead, State.op, h]

theorem State.mayWrite_of_idle {s : State} (h : s.engine = .idle) (a : Nat) : s.mayWrite a = false := by
  simp [State.mayWrite, State.op, h]

/-- The engine's two moves in each of its conditions (R153). -/
theorem State.engineMoves_of_idle {s : State} (h : s.engine = .idle) :
    s.engineComplete = .next s ∧ s.engineAdvance = .next s := by
  simp [State.engineComplete, State.engineAdvance, h]

theorem State.engineComplete_of_pending {s : State} {v : Word} (h : s.engine = .pending v) :
    s.engineComplete = exec (decodeCommand v) s := by simp [State.engineComplete, h]

theorem State.engineAdvance_of_pending {s : State} {v : Word} (h : s.engine = .pending v) :
    s.engineAdvance = if v = 1#32 then .next s.openFrame else exec (decodeCommand v) s := by
  simp [State.engineAdvance, h]

theorem State.engineMoves_of_decoding {s : State} {d : DecodeWork} (h : s.engine = .decoding d) :
    s.engineComplete = exec .decode s ∧ s.engineAdvance = s.tokenStep d := by
  simp [State.engineComplete, State.engineAdvance, h]

end Sys2Proof.Machine
end

