-- ==== Sys2Proof/Laws/Unpacker.lean ====
section
/-! SUPPORT. What the row copies of the unpacker leave (40_bitfield_pixel_unpacker.md R86, R88). -/

namespace Sys2Proof.Machine

/-- The payloads of two stream rows do not meet (R172 (a)). -/
theorem Operands.rowaddr_ne {o : Operands} {op : MemOp} (hc : o.badConfig op = false) {j k i l : Nat} (hj : j < o.rows)
    (hk : k < o.rows) (h : j ≠ k) (hi : i < o.payload op) (hl : l < o.payload op) :
    o.rowaddr j + i ≠ o.rowaddr k + l := by
  have hn : o.rowIndex j ≠ o.rowIndex k := fun h' => h (Operands.rowIndex_inj hj hk h')
  simp only [Operands.rowaddr]
  rcases Nat.lt_or_gt_of_ne hn with h' | h' <;> have := Operands.bufferRow_disjoint hc h' <;> omega

/-- Everything the copy of `n` stream rows does: the canonical form stays, the payload of each of the rows is the
stream's, every other byte stays. -/
theorem unpackRows_spec {src : Memory} {o : Operands} {op : MemOp} (srcStride : Nat) (hm : Memory.wf src)
    (hc : o.badConfig op = false) {n : Nat} (hn : n ≤ o.rows) :
    Memory.wf (unpackRows src o op srcStride n) ∧
      (∀ k j, k < n → j < o.payload op → Memory.read (unpackRows src o op srcStride n) (o.rowaddr k + j) =
        Memory.read src (o.stream + k * srcStride + j)) ∧
      ∀ a, (∀ k j, k < n → j < o.payload op → a ≠ o.rowaddr k + j) →
        Memory.read (unpackRows src o op srcStride n) a = Memory.read src a := by
  induction n with
  | zero => exact ⟨hm, by omega, fun _ _ => rfl⟩
  | succ n ih =>
    obtain ⟨h1, h2, h3⟩ := ih (by omega)
    have he := Operands.rowaddr_end_le hc (show n < o.rows by omega)
    have hr := Memory.read_fill (f := fun x => Memory.read src (o.stream + n * srcStride + (x - o.rowaddr n))) h1 he
    simp only [unpackRows, unpackRow, Operands.unrounded_eq_payload]
    refine ⟨Memory.wf_fill h1 he, fun k j hk hj => ?_, fun a ha => ?_⟩
    · rw [hr]
      by_cases hkn : k = n
      · subst hkn
        rw [if_pos (by omega)]
        congr 1
        omega
      · rw [if_neg, h2 k j (by omega) hj]
        rintro ⟨hx, hy⟩
        exact Operands.rowaddr_ne hc (show k < o.rows by omega) (show n < o.rows by omega) hkn hj
          (show o.rowaddr k + j - o.rowaddr n < _ by omega) (by omega)
    · rw [hr, if_neg, h3 a fun k j hk => ha k j (by omega)]
      intro hx
      exact ha n (a - o.rowaddr n) (by omega) (by omega) (by omega)

end Sys2Proof.Machine
end

