-- ==== Sys2Proof/Tests/Slice0.lean ====
section
/-! SUPPORT. Tests: the smoke test of WellFormed, words written out from the encodings of 30_encoding.md, one-step
tests on vectors of 95_test_vectors.md, and a state that meets the hypotheses of each statement. -/

namespace Sys2Proof.Tests

open Sys2Proof.Machine

/-! ### Helpers -/

/-- Bytes laid down one after another. -/
def load (a : Nat) : List Byte → Memory → Memory
  | [], m => m
  | b :: rest, m => load (a + 1) rest (Memory.write m a b)

/-- A machine with these operands, this engine and this memory, all else as after reset. -/
def machine (o : Operands) (e : Engine) (m : Memory) : State :=
  { State.reset with operands := o, engine := e, mem := m }

/-- A frame as tables T5 and T6 lay it out: stream at 0x1000, pixel buffer at 0x2000. -/
def frame (len stride w h : Word) : Operands :=
  { streamAddr := 0x1000#32, streamLen := len, pixAddr := 0x2000#32, pixStride := stride, width := w, height := h }

/-- A DECODE in progress. -/
def work (cur c0 k xpos : Nat) (pos : Position) : DecodeWork :=
  { cur := cur, c0 := c0, k := k, xpos := xpos, short := false, pos := pos }

/-- A property of the next state, where there is one. -/
def onNext (a : Answer) (p : State → Bool) : Bool :=
  match a with
  | .next t => p t
  | .fault _ => false
  | .refused _ => false

/-- `n` bytes read from address `a` on. -/
def bytesAt (m : Memory) (a n : Nat) : List Byte := (List.range n).map fun i => Memory.read m (a + i)

/-- STATUS, ERRCODE, DIAG, STREAM_USED, ERR_ROW and ERR_OFF as the host reads them. -/
def results (s : State) : List Word :=
  [.status, .errcode, .diag, .streamUsed, .errRow, .errOff].map fun r => s.readReg (some r)

/-! ### WellFormed refuses every ill-formed term -/

theorem test_reserved_clear_ill_formed : (Instr.cmdReserved 0#28 0#4).wellFormed = false := by decide
theorem test_reserved_unpack8_ill_formed : (Instr.cmdReserved 0#28 5#4).wellFormed = false := by decide
theorem test_reserved_six_well_formed : (Instr.cmdReserved 0#28 6#4).wellFormed = true := by decide
theorem test_reserved_high_bits_well_formed : (Instr.cmdReserved 1#28 0#4).wellFormed = true := by decide
theorem test_zrun_sentinel_ill_formed : (Instr.zrun 0#4 0#4 0#4).wellFormed = false := by decide
theorem test_zrun_blue_well_formed : (Instr.zrun 0#4 0#4 1#4).wellFormed = true := by decide
theorem test_run_zero_count_ill_formed : (Instr.run 15#4 15#4 15#4 0#4).wellFormed = false := by decide
theorem test_run_black_well_formed : (Instr.run 0#4 0#4 0#4 1#4).wellFormed = true := by decide

/-! ### Words written out from R66 and R61 (table T1) -/

theorem test_decode_clear : decode .command [0x00#8, 0x00#8, 0x00#8, 0x00#8] = .ok (.clear, []) := by decide
theorem test_decode_decode : decode .command [0x01#8, 0x00#8, 0x00#8, 0x00#8] = .ok (.decode, []) := by decide
theorem test_decode_encode : decode .command [0x02#8, 0x00#8, 0x00#8, 0x00#8] = .ok (.encode, []) := by decide
theorem test_decode_encSize : decode .command [0x03#8, 0x00#8, 0x00#8, 0x00#8] = .ok (.encSize, []) := by
  decide
theorem test_decode_unpack16 : decode .command [0x04#8, 0x00#8, 0x00#8, 0x00#8] = .ok (.unpack16, []) := by
  decide
theorem test_decode_unpack8 : decode .command [0x05#8, 0x00#8, 0x00#8, 0x00#8] = .ok (.unpack8, []) := by
  decide
theorem test_decode_reserved :
    decode .command [0x01#8, 0x00#8, 0x00#8, 0x80#8] = .ok (.cmdReserved 0x8000000#28 1#4, []) := by decide
theorem test_decode_eor : decode .item [0x00#8, 0x00#8] = .ok (.eor, []) := by decide
theorem test_decode_zrun : decode .item [0x30#8, 0x12#8] = .ok (.zrun 1#4 2#4 3#4, []) := by decide
theorem test_decode_run : decode .item [0xC5#8, 0xAB#8] = .ok (.run 10#4 11#4 12#4 5#4, []) := by decide
theorem test_decode_pad : decode .padding [0x00#8, 0x00#8, 0x07#8] = .ok (.pad 0#16, [0x07#8]) := by decide

theorem test_table_word_command : decodeTableWord 32 0x00000011 = some (.cmdReserved 1#28 1#4) := by decide
theorem test_table_word_token : decodeTableWord 16 0x1231 = some (.run 1#4 2#4 3#4 1#4) := by decide

/-! ### One step of every instruction -/

/-- Example of R150: after a failed DECODE, CLEAR gives STATUS 0 and ERRCODE 0. -/
theorem test_clear_after_error :
    onNext (exec .clear
      { machine (frame 4 30 15 0xFFFFFFFF) .idle [] with
        status := { done := true, err := true, bottomUp := true }
        report := errReport .rowOverrun 0 2 }) (fun t => results t = [0, 0, 0, 0, 0, 0]) = true := by decide

/-- CLEAR is not an abort (R150). -/
theorem test_clear_while_busy :
    onNext (exec .clear (machine (frame 4 30 15 1) (.pending 1#32) []))
      (fun t => t.engine = .pending 1#32) = true := by decide

/-- R151, vector D8b: DECODE starts with BOTTOMUP set. -/
theorem test_decode_start :
    onNext (exec .decode (machine (frame 12 4 2 2) .idle [])) (fun t => results t = [9, 0, 0, 0, 0, 0]) = true := by
  decide

/-- Example of R108. -/
theorem test_decode_frame :
    onNext (exec .decode { machine (frame 12 4 2 2) (.pending 1#32)
        (load 0x1000 [0x02, 0xF0, 0x00, 0x00, 0x01, 0x0F, 0x11, 0x00, 0x00, 0x00, 0x00, 0x00] []) with
        status := { done := false, err := false, bottomUp := true } })
      (fun t => results t = [10, 0, 0, 12, 0, 0] ∧
        bytesAt t.mem 0x2000 8 = [0x80, 0x07, 0x02, 0x00, 0x00, 0xF0, 0x00, 0xF0]) = true := by decide

/-- Vector E5. -/
theorem test_encode_row :
    onNext (exec .encode (machine (frame 8 8 4 0xFFFFFFFF) (.pending 2#32)
        (load 0x2000 [0xFF, 0xFF, 0x9E, 0xF7, 0xFF, 0xFF, 0x61, 0x08] [])))
      (fun t => results t = [2, 0, 0, 8, 0, 0] ∧
        bytesAt t.mem 0x1000 8 = [0xF3, 0xFF, 0x01, 0x00, 0x00, 0x00, 0x00, 0x00]) = true := by decide

/-- Vector E5 with room for six bytes: the pad does not fit (R142). -/
theorem test_encode_no_room_for_pad :
    onNext (exec .encode (machine (frame 6 8 4 0xFFFFFFFF) (.pending 2#32)
        (load 0x2000 [0xFF, 0xFF, 0x9E, 0xF7, 0xFF, 0xFF, 0x61, 0x08] [])))
      (fun t => results t = [6, 8, 0, 0, 0, 6]) = true := by decide

/-- Vector E5 by ENC_SIZE, STREAM_LEN zero. -/
theorem test_encSize_row :
    onNext (exec .encSize (machine (frame 0 8 4 0xFFFFFFFF) (.pending 3#32)
        (load 0x2000 [0xFF, 0xFF, 0x9E, 0xF7, 0xFF, 0xFF, 0x61, 0x08] [])))
      (fun t => results t = [2, 0, 0, 8, 0, 0] ∧ bytesAt t.mem 0x1000 4 = [0, 0, 0, 0]) = true := by decide

/-- Example of R86, the padded stream. -/
theorem test_unpack16_padded :
    onNext (exec .unpack16 (machine (frame 8 2 1 0xFFFFFFFE) (.pending 4#32)
        (load 0x1000 [0x34, 0x12, 0xEE, 0xEE, 0xCD, 0xAB, 0xEE, 0xEE] [])))
      (fun t => results t = [2, 0, 0, 8, 0, 0] ∧ bytesAt t.mem 0x2000 4 = [0x34, 0x12, 0xCD, 0xAB]) = true := by
  decide

/-- Example of R86, the fallback. -/
theorem test_unpack16_fallback :
    onNext (exec .unpack16 (machine (frame 4 2 1 0xFFFFFFFE) (.pending 4#32)
        (load 0x1000 [0x34, 0x12, 0xCD, 0xAB] [])))
      (fun t => results t = [2, 0, 1, 4, 0, 0] ∧ bytesAt t.mem 0x2000 4 = [0x34, 0x12, 0xCD, 0xAB]) = true := by
  decide

/-- Example of R87. -/
theorem test_unpack8_pixel :
    onNext (exec .unpack8 (machine (frame 4 1 1 1) (.pending 5#32) (load 0x1000 [0x7F] [])))
      (fun t => results t = [2, 0, 0, 4, 0, 0] ∧ bytesAt t.mem 0x2000 2 = [0x7F, 0x00]) = true := by decide

/-- Example of R87 with STREAM_LEN zero. -/
theorem test_unpack8_insufficient :
    onNext (exec .unpack8 (machine (frame 0 1 1 1) (.pending 5#32) []))
      (fun t => results t = [6, 6, 0, 0, 0, 0]) = true := by decide

/-- R173: the opcode is checked first, whatever the dimensions (R179). -/
theorem test_reserved_completion :
    onNext (exec (.cmdReserved 0#28 7#4) (machine (frame 8 4 0 5) (.pending 7#32) []))
      (fun t => results t = [6, 4, 0, 0, 0, 0]) = true := by decide

/-- Vector D3: the sentinel first in a row makes its pad due. -/
theorem test_eor_pad_due :
    onNext (exec .eor (machine (frame 4 2 1 0xFFFFFFFF) (.decoding (work 2 0 0 0 .item)) []))
      (fun t => t.engine = .decoding (work 2 0 0 0 .padding)) = true := by decide

/-- Vector D17: the sentinel at a multiple of four ends the frame of one row. -/
theorem test_eor_completes :
    onNext (exec .eor (machine (frame 4 10 5 0xFFFFFFFF) (.decoding (work 4 0 0 5 .item)) []))
      (fun t => results t = [2, 0, 0, 4, 0, 0]) = true := by decide

/-- Vector D6: `ZRUN` after a full row is legal. -/
theorem test_zrun_full_row :
    onNext (exec (.zrun 1#4 2#4 3#4) (machine (frame 8 4 2 0xFFFFFFFF) (.decoding (work 4 0 0 2 .item)) []))
      (fun t => t.engine = .decoding (work 4 0 0 2 .item)) = true := by decide

/-- Example of R103. -/
theorem test_run_pixels :
    onNext (exec (.run 10#4 11#4 12#4 3#4) (machine (frame 8 8 4 0xFFFFFFFF) (.decoding (work 2 0 0 0 .item)) []))
      (fun t => t.engine = .decoding (work 2 0 0 3 .item) ∧
        bytesAt t.mem 0x2000 8 = [0x98, 0xA5, 0x98, 0xA5, 0x98, 0xA5, 0x00, 0x00]) = true := by decide

/-- Vector D4: 3 + 2 > 4. -/
theorem test_run_overrun :
    onNext (exec (.run 0#4 0#4 0#4 2#4) (machine (frame 8 8 4 0xFFFFFFFF) (.decoding (work 4 0 0 3 .item)) []))
      (fun t => results t = [6, 7, 0, 0, 0, 2]) = true := by decide

/-- Vector D7: the pad word A55A is discarded. -/
theorem test_pad_discarded :
    onNext (exec (.pad 0xA55A#16) (machine (frame 8 8 4 0xFFFFFFFF) (.decoding (work 8 0 0 4 .padding)) []))
      (fun t => results t = [2, 0, 0, 8, 0, 0]) = true := by decide

/-! ### The machine from reset -/

theorem test_reset_registers_zero : results State.reset = [0, 0, 0, 0, 0, 0] := by decide

/-- A command word placed by `withFetchWord` is run by the very next step. -/
theorem test_fetch_command :
    onNext (step (State.reset.withFetchWord 32 0x00000002)) (fun t => t.engine = .pending 2#32) = true := by
  decide

/-- A stream word placed by `withFetchWord` is run by the very next step. -/
theorem test_fetch_token :
    onNext (step (State.reset.withFetchWord 16 0x1231)) (fun t => bytesAt t.mem 0x2000 3 = [0x06, 0x11, 0x00]) = true := by
  decide

/-! ### A state for the hypotheses of each statement -/

theorem test_witness_encodings :
    (Instr.cmdReserved 0#28 6#4).wellFormed = true ∧ (Instr.cmdReserved 0xFFFFFFF#28 15#4).wellFormed = true ∧
    (Instr.zrun 0#4 0#4 1#4).wellFormed = true ∧ (Instr.run 0#4 0#4 0#4 15#4).wellFormed = true ∧
    (Instr.pad 0xFFFF#16).wellFormed = true := by decide

theorem test_witness_decoded :
    decode .command [0x06#8, 0x00#8, 0x00#8, 0x00#8, 0xEE#8] = .ok (.cmdReserved 0#28 6#4, [0xEE#8]) ∧
    decode .item [0x01#8, 0x00#8] = .ok (.run 0#4 0#4 0#4 1#4, []) ∧
    decode .padding [0xFF#8, 0xFF#8] = .ok (.pad 0xFFFF#16, []) := by decide

theorem test_witness_reserved_word : 5 < (6#32 : Word).toNat ∧ 5 < (0xFFFFFFFF#32 : Word).toNat := by decide

/-- An idle machine and the busy ones the statements are about. -/
def idleMachine : State := machine (frame 12 4 2 2) .idle []

def pendingMachine (v : Word) : State := machine (frame 12 4 2 2) (.pending v) []

theorem test_witness_command_start : idleMachine.engine = .idle ∧ (1#32 : Word) ≠ 0#32 := by decide

theorem test_witness_clear :
    idleMachine.engine = .idle ∧ (pendingMachine 1).engine ≠ .idle ∧
    (machine (frame 4 2 1 1) (.decoding .start) []).engine ≠ .idle := by decide

theorem test_witness_independent :
    idleMachine.engine = .idle ∧ (1#32 : Word) ≠ 0#32 ∧ exec .clear idleMachine = .next idleMachine.clearResults :=
  ⟨rfl, by decide, rfl⟩

theorem test_witness_reserved : (pendingMachine 6).engine = .pending 6#32 ∧ 5 < (6#32 : Word).toNat := by
  decide

/-- Both halves of R171 at their boundaries: WIDTH 0, WIDTH −1, HEIGHT 0. -/
theorem test_witness_dimensions :
    (let s := machine (frame 8 4 0 1) (.pending MemOp.encode.word) []
     s.engine = .pending MemOp.encode.word ∧ s.operands.width.toInt ≤ 0) ∧
    (let s := machine (frame 8 4 0xFFFFFFFF 1) (.pending MemOp.unpack8.word) []
     s.engine = .pending MemOp.unpack8.word ∧ s.operands.width.toInt ≤ 0) ∧
    (let s := machine (frame 8 4 2 0) (.pending MemOp.decode.word) []
     s.engine = .pending MemOp.decode.word ∧ s.operands.height.toInt = 0) := by decide

/-- The four conditions of R172 at their boundaries: a stride one short, PEND and SEND one past 2^32, one byte
shared. -/
theorem test_witness_layout :
    (let s := machine (frame 8 3 2 1) (.pending MemOp.decode.word) []
     s.engine = .pending MemOp.decode.word ∧ 1 ≤ s.operands.width.toInt ∧ s.operands.height.toInt ≠ 0 ∧
       s.operands.pixStride.toNat < s.operands.width.toInt.toNat * 2) ∧
    (let s := machine { frame 4 2 1 1 with pixAddr := 0xFFFFFFFF#32 } (.pending MemOp.encSize.word) []
     s.engine = .pending MemOp.encSize.word ∧ 1 ≤ s.operands.width.toInt ∧ s.operands.height.toInt ≠ 0 ∧
       2 ^ 32 < s.operands.pixAddr.toNat + (s.operands.height.toInt.natAbs - 1) * s.operands.pixStride.toNat +
         s.operands.width.toInt.toNat * 2) ∧
    (let s := machine { frame 5 2 1 1 with streamAddr := 0xFFFFFFFC#32 } (.pending MemOp.unpack16.word) []
     s.engine = .pending MemOp.unpack16.word ∧ 1 ≤ s.operands.width.toInt ∧ s.operands.height.toInt ≠ 0 ∧
       2 ^ 32 < s.operands.streamAddr.toNat + s.operands.streamLen.toNat) ∧
    (let s := machine { frame 2 4 4 1 with streamAddr := 0x1FFF#32 } (.pending MemOp.unpack8.word) []
     s.engine = .pending MemOp.unpack8.word ∧ 1 ≤ s.operands.width.toInt ∧ s.operands.height.toInt ≠ 0 ∧
       0 < s.operands.streamLen.toNat ∧ s.operands.streamAddr.toNat < s.operands.pixAddr.toNat + 4 ∧
       s.operands.pixAddr.toNat < s.operands.streamAddr.toNat + s.operands.streamLen.toNat) := by decide

theorem test_witness_other_word : (pendingMachine 1).engine = .pending 1#32 ∧ (0#32 : Word) ≠ 1#32 := by decide

/-- R84 one byte short of the unrounded length. -/
theorem test_witness_unpack_short :
    (let s := machine (frame 5 3 3 2) (.pending MemOp.unpack8.word) []
     s.engine = .pending MemOp.unpack8.word ∧ s.operands.badDimensions = false ∧
       s.operands.badConfig .unpack8 = false ∧
       s.operands.len < s.operands.cols * MemOp.unpack8.bpp * s.operands.rows) := by decide

/-- R84 at exactly the unrounded length (the fallback) and at exactly the padded length. -/
theorem test_witness_unpack_copies :
    (let s := machine (frame 6 3 3 2) (.pending MemOp.unpack8.word) (load 0x1000 [1, 2, 3, 4, 5, 6] [])
     Memory.wf s.mem ∧ s.engine = .pending MemOp.unpack8.word ∧ s.operands.badDimensions = false ∧
       s.operands.badConfig .unpack8 = false ∧
       s.operands.cols * MemOp.unpack8.bpp * s.operands.rows = s.operands.len) ∧
    (let s := machine (frame 8 2 1 0xFFFFFFFE) (.pending MemOp.unpack16.word) (load 0x1000 [1, 2, 0, 0, 5, 6] [])
     Memory.wf s.mem ∧ s.engine = .pending MemOp.unpack16.word ∧ s.operands.badDimensions = false ∧
       s.operands.badConfig .unpack16 = false ∧
       4 * ((s.operands.cols * MemOp.unpack16.bpp + 3) / 4) * s.operands.rows = s.operands.len) := by decide

/-- A row whose runs end in each of the two ways: at count 15 and at a different pixel. -/
theorem test_witness_runs :
    (rowRuns (List.replicate 16 0xF800#16 ++ [0x07E0#16]))[0]? = some (0xF800#16, 15) ∧
    (rowRuns (List.replicate 16 0xF800#16 ++ [0x07E0#16]))[1]? = some (0xF800#16, 1) ∧
    (rowRuns (List.replicate 16 0xF800#16 ++ [0x07E0#16]))[2]? = some (0x07E0#16, 1) := by decide

theorem test_witness_masked_rows :
    ([0x1234#16, 0x0861#16] : List Half).map (· &&& 0xF79E#16) =
      ([0x1A75#16, 0x0000#16] : List Half).map (· &&& 0xF79E#16) := by decide

/-- `put16` one byte short of room and with exactly enough, with and without writing. -/
theorem test_witness_put16 :
    (let z : Serializer := { cur := 2, c0 := 0, mem := [] }
     Memory.wf z.mem ∧ 0x1000 + 3 ≤ 2 ^ 32 ∧ 3 < z.cur + 2 ∧ z.cur + 2 ≤ 4) := by decide

/-- The frame of vector E5. -/
def encodeMachine (len v : Word) : State :=
  machine (frame len 8 4 0xFFFFFFFF) (.pending v) (load 0x2000 [0xFF, 0xFF, 0x9E, 0xF7, 0xFF, 0xFF, 0x61, 0x08] [])

theorem test_witness_encode :
    (let s := encodeMachine 8 2
     Memory.wf s.mem ∧ s.engine = .pending 2#32 ∧ s.operands.startError .encode = none ∧
       frameBytes s.operands s.mem = s.operands.len) := by decide

theorem test_witness_encode_no_room :
    (let s := encodeMachine 7 2
     Memory.wf s.mem ∧ s.engine = .pending 2#32 ∧ s.operands.startError .encode = none ∧
       s.operands.len < frameBytes s.operands s.mem) := by decide

/-- A frame of 2^31 rows of one pixel, the narrowest and tallest there is (R126). -/
def tallFrame : Operands :=
  { streamAddr := 0#32, streamLen := 0#32, pixAddr := 0#32, pixStride := 2#32, width := 1#32, height := 0x80000000#32 }

theorem tallFrame_words (m : Memory) (n : Nat) : (rowsWords tallFrame m n).length = 2 * n := by
  induction n with
  | zero => rfl
  | succ n ih =>
    rw [rowsWords_succ, List.length_append, ih, show tallFrame.cols = 1 from by decide]
    simp [rowPixels, rowWords, rowRuns, growRuns]
    omega

theorem tallFrame_bytes : 0xFFFFFFFF < frameBytes tallFrame [] := by
  rw [frameBytes, tallFrame_words, show tallFrame.rows = 2147483648 from by decide]
  norm_num

/-- The frame of vector E5 by ENC_SIZE, and the tall frame as the operands of a pending ENC_SIZE. -/
def tallMachine : State := machine tallFrame (.pending 3#32) []

theorem test_witness_encSize :
    ((encodeMachine 0 3).engine = .pending 3#32 ∧ (encodeMachine 0 3).operands.startError .encSize = none ∧
      frameBytes (encodeMachine 0 3).operands (encodeMachine 0 3).mem ≤ 0xFFFFFFFF) ∧
    tallMachine.engine = .pending 3#32 ∧ tallMachine.operands = tallFrame ∧ tallMachine.mem = [] ∧
    tallFrame.startError .encSize = none ∧ 0xFFFFFFFF < frameBytes tallFrame [] :=
  ⟨⟨rfl, by decide, by decide⟩, rfl, rfl, rfl, by decide, tallFrame_bytes⟩

theorem test_witness_worst_case :
    (let s := encodeMachine 12 2
     s.engine = .pending 2#32 ∧ s.operands.startError .encode = none ∧
       s.operands.rows * roundup4 (2 * s.operands.cols + 2) = s.operands.len) := by decide

/-- A DECODE between two tokens. -/
def decodeMachine (len w h : Word) (d : DecodeWork) : State := machine (frame len (2 * w) w h) (.decoding d) []

/-- RUN one pixel too long, exactly filling the row, and ending at the last byte of the address space. -/
theorem test_witness_run :
    (let s := decodeMachine 8 4 1 (work 4 0 0 3 .item)
     Memory.wf s.mem ∧ s.engine = .decoding (work 4 0 0 3 .item) ∧ s.operands.cols < 3 + (2#4).toNat ∧
       3 + (1#4).toNat = s.operands.cols ∧ s.operands.rowaddr 0 + 2 * (3 + (1#4).toNat) ≤ 2 ^ 32) ∧
    (let s := machine { frame 8 8 4 1 with pixAddr := 0xFFFFFFF8#32 } (.decoding (work 4 0 0 3 .item)) []
     Memory.wf s.mem ∧ s.engine = .decoding (work 4 0 0 3 .item) ∧ 3 + (1#4).toNat = s.operands.cols ∧
       s.operands.rowaddr 0 + 2 * (3 + (1#4).toNat) = 2 ^ 32) := by decide

theorem test_witness_zrun :
    (decodeMachine 8 4 1 (work 4 0 0 4 .item)).engine = .decoding (work 4 0 0 4 .item) ∧
    (0x0010#16 : Half) ≠ 0#16 ∧ (0x0010#16 : Half) &&& 0x000F#16 = 0#16 ∧
    (0xFFF0#16 : Half) ≠ 0#16 ∧ (0xFFF0#16 : Half) &&& 0x000F#16 = 0#16 := by decide

/-- The three ways a sentinel ends its row, each with a DECODE in progress at the item position. -/
theorem test_witness_sentinel :
    (let d := work 6 0 0 4 .item
     (decodeMachine 8 4 2 d).engine = .decoding d ∧ d.pos = .item ∧ (d.cur - d.c0) % 4 ≠ 0) ∧
    (let d := work 4 0 0 4 .item
     (decodeMachine 8 4 2 d).engine = .decoding d ∧ d.pos = .item ∧ (d.cur - d.c0) % 4 = 0 ∧
       d.k + 1 < (decodeMachine 8 4 2 d).operands.rows) ∧
    (let d := work 8 4 1 3 .item
     (decodeMachine 8 4 2 d).engine = .decoding d ∧ d.pos = .item ∧ (d.cur - d.c0) % 4 = 0 ∧
       (decodeMachine 8 4 2 d).operands.rows ≤ d.k + 1) := by decide

theorem test_witness_pad :
    (let d := work 8 0 0 4 .padding
     (decodeMachine 16 4 2 d).engine = .decoding d ∧ d.pos = .padding ∧
       d.k + 1 < (decodeMachine 16 4 2 d).operands.rows) ∧
    (let d := work 16 8 1 4 .padding
     (decodeMachine 16 4 2 d).engine = .decoding d ∧ d.pos = .padding ∧
       (decodeMachine 16 4 2 d).operands.rows ≤ d.k + 1) := by decide

/-- No DECODE, a DECODE at the pad, and a DECODE at an item. -/
theorem test_witness_outside :
    Instr.eor.slot ≠ .command ∧ (Instr.pad 0#16).slot ≠ .command ∧ idleMachine.engine = .idle ∧
    (pendingMachine 1).engine = .pending 1#32 ∧ (work 6 0 0 0 .padding).pos.slot ≠ Instr.eor.slot ∧
    (work 2 0 0 0 .item).pos.slot ≠ (Instr.pad 0#16).slot := by decide

theorem test_witness_step_command :
    (let s := { idleMachine with agenda := [.regWrite 0 4 2#32] }
     s.engine = .idle ∧ s.rst = false ∧ s.agenda = .regWrite 0 4 2#32 :: []) := ⟨rfl, rfl, rfl⟩

theorem test_witness_step_pending :
    (pendingMachine 2).engine = .pending 2#32 ∧ (pendingMachine 2).agenda = [] ∧
    (let s := { pendingMachine 1 with agenda := [.complete] }
     s.engine = .pending 1#32 ∧ s.agenda = [.complete]) ∧
    (let s := { pendingMachine 6 with agenda := [.advance] }
     s.engine = .pending 6#32 ∧ (6#32 : Word) ≠ 1#32 ∧ s.agenda = [.advance]) ∧
    (let d := work 4 0 0 3 .item
     (decodeMachine 8 4 1 d).engine = .decoding d ∧ (decodeMachine 8 4 1 d).agenda = [] ∧
       ({ decodeMachine 8 4 1 d with agenda := [.complete] } : State).agenda = [.complete]) := by decide

/-- What the move `advance` does to a pending command that is not DECODE, and `complete` to an idle block. -/
theorem test_moves_complete :
    onNext (step { pendingMachine 6 with agenda := [.advance] }) (fun t => results t = [6, 4, 0, 0, 0, 0]) = true ∧
    onNext (step { idleMachine with agenda := [.complete] }) (· = idleMachine) = true := by decide

/-- The last word of a stream that ends at the last byte of the address space. -/
def lastWordMachine : State :=
  { machine { frame 4 30 15 1 with streamAddr := 0xFFFFFFFC#32 } (.decoding (work 2 0 0 15 .item)) [] with
    agenda := [.advance] }

theorem test_witness_step_word :
    lastWordMachine.engine = .decoding (work 2 0 0 15 .item) ∧ lastWordMachine.agenda = [.advance] ∧
    (work 2 0 0 15 .item).cur + 2 = lastWordMachine.operands.len ∧
    lastWordMachine.operands.stream + (work 2 0 0 15 .item).cur + 2 = 2 ^ 32 ∧
    decode (work 2 0 0 15 .item).pos.slot
      [Memory.read lastWordMachine.mem (lastWordMachine.operands.stream + (work 2 0 0 15 .item).cur),
        Memory.read lastWordMachine.mem (lastWordMachine.operands.stream + (work 2 0 0 15 .item).cur + 1)] =
      .ok (.eor, []) := by decide

/-- One byte short of a word (vector D9). -/
theorem test_witness_exhausted :
    (let s := { decodeMachine 3 1 0xFFFFFFFF (work 2 0 0 1 .item) with agenda := [.advance] }
     Memory.wf s.mem ∧ s.engine = .decoding (work 2 0 0 1 .item) ∧ s.agenda = [.advance] ∧
       s.operands.len < (work 2 0 0 1 .item).cur + 2) := by decide

/-- A word that leaves the command running, and the word that ends it. -/
theorem test_witness_one_word :
    onNext (step { machine (frame 4 2 1 1) (.decoding .start) (load 0x1000 [0x01, 0xF0] []) with agenda := [.advance] })
      State.busy = true ∧
    onNext (step lastWordMachine) (fun t => !t.busy) = true := by decide

/-- A pending DECODE about to take its first move: one that fails a start check, and one that passes them all. -/
theorem test_witness_first_move :
    (let s := { machine (frame 4 2 0 1) (.pending 1#32) [] with agenda := [.advance] }
     s.engine = .pending 1#32 ∧ s.agenda = [.advance] ∧ s.operands.startError .decode = some .dimensionError) ∧
    (let s := { machine (frame 4 2 1 1) (.pending 1#32) [] with agenda := [.advance] }
     s.engine = .pending 1#32 ∧ s.agenda = [.advance] ∧ s.operands.startError .decode = none) := by decide

/-- What `Memory.holds` says, by computation. -/
theorem holds_of_map {m : Memory} {a : Nat} {words : List Half}
    (h : (List.range words.length).map (fun i => Memory.read16 m (a + 2 * i)) = words) : Memory.holds m a words := by
  intro i v hv
  have hi := (List.getElem?_eq_some_iff.mp hv).1
  rw [← h, List.getElem?_map, List.getElem?_range hi] at hv
  simpa using hv

/-- The example of R108: two rows, the second with a pad word, in a stream of exactly their length. -/
def exampleRows : List StreamRow := [⟨[0xF002], 0⟩, ⟨[0x0F01, 0x0011], 0⟩]

def exampleMachine : State :=
  machine (frame 12 4 2 2) (.pending 1#32)
    (load 0x1000 [0x02, 0xF0, 0x00, 0x00, 0x01, 0x0F, 0x11, 0x00, 0x00, 0x00, 0x00, 0x00] [])

theorem exampleRows_fit :
    ∀ r ∈ exampleRows, (∀ t ∈ r.items, t ≠ 0#16) ∧ r.pixels.length ≤ exampleMachine.operands.cols := by
  intro r hr
  simp only [exampleRows, List.mem_cons, List.not_mem_nil, or_false] at hr
  rcases hr with rfl | rfl <;> exact ⟨by simp, by decide⟩

theorem test_witness_decode :
    Memory.wf exampleMachine.mem ∧ exampleMachine.engine = .pending 1#32 ∧
    exampleMachine.operands.startError .decode = none ∧ exampleRows.length = exampleMachine.operands.rows ∧
    (∀ r ∈ exampleRows, (∀ t ∈ r.items, t ≠ 0#16) ∧ r.pixels.length ≤ exampleMachine.operands.cols) ∧
    2 * (exampleRows.flatMap StreamRow.words).length = exampleMachine.operands.len ∧
    Memory.holds exampleMachine.mem exampleMachine.operands.stream (exampleRows.flatMap StreamRow.words) :=
  ⟨by decide, rfl, by decide, rfl, exampleRows_fit, by decide, holds_of_map (by decide)⟩

/-- The machine that decodes what `encodeMachine 8 2` encodes, into another buffer. -/
def decodeBack : State :=
  machine { frame 8 8 4 0xFFFFFFFF with streamAddr := 0x3000#32 } (.pending 1#32)
    (load 0x3000 [0xF3, 0xFF, 0x01, 0x00, 0x00, 0x00, 0x00, 0x00] [])

theorem test_witness_round_trip :
    Memory.wf (encodeMachine 8 2).mem ∧ (encodeMachine 8 2).engine = .pending 2#32 ∧
    onNext (exec .encode (encodeMachine 8 2)) (fun t => t.report.errCode = .noError ∧
      t.report.streamUsed.toNat ≤ decodeBack.operands.len ∧
      bytesAt decodeBack.mem 0x3000 8 = bytesAt t.mem 0x1000 8) = true ∧
    Memory.wf decodeBack.mem ∧ decodeBack.engine = .pending 1#32 ∧
    decodeBack.operands.startError .decode = none ∧
    decodeBack.operands.width = (encodeMachine 8 2).operands.width ∧
    decodeBack.operands.height = (encodeMachine 8 2).operands.height := by decide

theorem test_witness_operand_write :
    (let s := { idleMachine with agenda := [.regWrite (0x10 + 4 * (5 : Fin 6).val) 4 0x80000000#32] }
     s.engine = .idle ∧ s.rst = false ∧ s.agenda = .regWrite (0x10 + 4 * (5 : Fin 6).val) 4 0x80000000#32 :: []) := by
  decide

/-- Every reason for which a register write is ignored, at the ends of the read-only and reserved offsets. -/
theorem test_witness_ignored_write :
    (let s := { pendingMachine 1 with agenda := [.regWrite (4 * 0) 4 1#32] }
     0 < 16 ∧ s.agenda = [.regWrite (4 * 0) 4 1#32] ∧ s.engine ≠ .idle) ∧
    (let s := { idleMachine with rst := true, agenda := [.regWrite (4 * 9) 4 1#32] }
     9 < 16 ∧ s.agenda = [.regWrite (4 * 9) 4 1#32] ∧ s.rst = true) ∧
    onNext (step { idleMachine with agenda := [.regWrite (4 * 1) 4 1#32] }) (· = idleMachine) = true ∧
    onNext (step { idleMachine with agenda := [.regWrite (4 * 10) 4 1#32] }) (· = idleMachine) = true ∧
    onNext (step { idleMachine with agenda := [.regWrite (4 * 15) 4 1#32] }) (· = idleMachine) = true := by decide

/-- Reads at the two ends of the window. -/
theorem test_witness_register_read :
    onNext (step { pendingMachine 1 with agenda := [.regRead (4 * 1) 4] }) (fun t => t.hostData = 1#32) = true ∧
    onNext (step { idleMachine with hostData := 7#32, agenda := [.regRead (4 * 15) 4] }) (fun t => t.hostData = 0#32) =
      true := by decide

theorem test_witness_port_refusal :
    step { idleMachine with agenda := [.regRead 2 4] } = .refused .portAccess ∧
    step { idleMachine with agenda := [.regWrite 0 2 1#32] } = .refused .portAccess ∧
    step { idleMachine with agenda := [.regRead 0x40 4] } = .refused .portAccess := ⟨rfl, rfl, rfl⟩

/-- The bytes at the ends of the footprint of a running DECODE, and the bytes next to them. -/
theorem test_witness_footprint :
    (let s := pendingMachine 1
     s.operands.startError .decode = none ∧ s.op = some 1#32 ∧
     s.mayRead 0x1000 = true ∧ s.mayRead 0x100B = true ∧ s.mayRead 0xFFF = false ∧ s.mayRead 0x100C = false ∧
     s.mayWrite 0x2000 = true ∧ s.mayWrite 0x2007 = true ∧ s.mayWrite 0x1FFF = false ∧
     s.mayWrite 0x2008 = false) := by decide

/-- The same of an ENCODE and of an ENC_SIZE. -/
theorem test_witness_footprint_encode :
    (let s := pendingMachine 2
     s.operands.startError .encode = none ∧ s.op = some 2#32 ∧ s.mayWrite 0x1000 = true ∧ s.mayRead 0x2007 = true ∧
     s.mayWrite 0x100C = false ∧ s.mayRead 0x2008 = false) ∧
    (let s := pendingMachine 3
     s.operands.startError .encSize = none ∧ s.op = some 3#32 ∧ s.mayRead 0x2007 = true ∧ s.mayRead 0x2008 = false ∧
     s.mayRead 0x1000 = false ∧ s.mayWrite 0x1000 = false) := by decide

/-- An UNPACK16 of padded rows, an UNPACK8 of unrounded ones (the fallback), and an idle block: the last byte of each
set and the byte after it; the gap between two rows is in none (vector U2 with a stride of 4). -/
theorem test_witness_footprint_unpack :
    (let s := machine (frame 9 2 1 0xFFFFFFFE) (.pending 4#32) []
     s.operands.startError .unpack16 = none ∧ s.op = some 4#32 ∧ s.mayRead 0x1007 = true ∧ s.mayRead 0x1008 = false ∧
     s.mayWrite 0x2003 = true ∧ s.mayWrite 0x2004 = false) ∧
    (let s := machine (frame 7 4 3 2) (.pending 5#32) []
     s.operands.startError .unpack8 = none ∧ s.op = some 5#32 ∧ s.mayRead 0x1005 = true ∧ s.mayRead 0x1006 = false ∧
     s.mayWrite 0x2002 = true ∧ s.mayWrite 0x2003 = false ∧ s.mayWrite 0x2004 = true) ∧
    idleMachine.engine = .idle := by decide

/-- Operands whose start checks pass with both regions at the very end of the address space. -/
theorem test_witness_addresses :
    (let o := { frame 4 2 1 1 with streamAddr := 0xFFFFFFFC#32 }
     o.startError .unpack16 = none ∧ o.stream + 3 = 2 ^ 32 - 1) ∧
    (let o := { frame 4 2 1 1 with pixAddr := 0xFFFFFFFE#32 }
     o.startError .encSize = none ∧ o.rowaddr 0 + MemOp.encSize.bpp * 0 + 1 = 2 ^ 32 - 1) := by decide

theorem test_witness_host_memory :
    (let s := { pendingMachine 1 with agenda := [.memWrite 0x1000#32 1#8] }
     Memory.wf s.mem ∧ s.agenda = [.memWrite 0x1000#32 1#8] ∧ s.mayRead (0x1000#32 : Word).toNat = true) ∧
    (let s := { pendingMachine 1 with agenda := [.memWrite 0x100C#32 1#8] }
     Memory.wf s.mem ∧ s.agenda = [.memWrite 0x100C#32 1#8] ∧ s.mayRead (0x100C#32 : Word).toNat = false ∧
       s.mayWrite (0x100C#32 : Word).toNat = false) ∧
    (let s := { pendingMachine 1 with agenda := [.memRead 0x2000#32] }
     Memory.wf s.mem ∧ s.agenda = [.memRead 0x2000#32] ∧ s.mayWrite (0x2000#32 : Word).toNat = true) ∧
    (let s := { pendingMachine 1 with agenda := [.memRead 0x1000#32] }
     Memory.wf s.mem ∧ s.agenda = [.memRead 0x1000#32] ∧ s.mayWrite (0x1000#32 : Word).toNat = false) := by decide

/-- Reset while a DECODE is pending: a byte inside and a byte outside the abandoned write set. -/
theorem test_witness_reset :
    (let s := { pendingMachine 1 with agenda := [.rstAssert] }
     Memory.wf s.mem ∧ s.agenda = [.rstAssert] ∧ s.mayWrite 0x2007 = true ∧ s.mayWrite 0x2008 = false) := by decide

theorem test_witness_reset_release :
    (let s := { idleMachine with rst := true, agenda := [.rstRelease] }
     s.agenda = .rstRelease :: []) := rfl

theorem test_witness_completion_frame :
    Memory.wf (pendingMachine 1).mem ∧ (pendingMachine 1).agenda = [] ∧ (pendingMachine 1).engine ≠ .idle ∧
    (pendingMachine 1).mayWrite 0x2008 = false ∧
    (pendingMachine 1).engine.ok (pendingMachine 1).operands = true ∧
    onNext (step (pendingMachine 1)) (fun _ => true) = true := by decide

theorem test_witness_operands_kept :
    (let s := pendingMachine 1
     s.agenda.head? = none ∧ onNext (step s) (fun t => t.operands = s.operands) = true) := by decide

theorem test_witness_idle :
    idleMachine.engine = .idle ∧ idleMachine.agenda = [] ∧
    ({ idleMachine with agenda := [.complete] } : State).agenda = [.complete] ∧
    ({ idleMachine with agenda := [.advance] } : State).agenda = [.advance] := by decide

/-- The machine right after the start of a DECODE of a bottom-up frame. -/
def startedMachine : State := idleMachine.start 1#32

/-- Meets the invariant, is busy, has no move placed, and its step gives a next state. -/
theorem test_witness_invariant :
    Inv startedMachine ∧ startedMachine.busy = true ∧ startedMachine.agenda = [] ∧
    onNext (step startedMachine) (fun _ => true) = true := by decide

/-- The same between two tokens of a DECODE, the pad word due. -/
theorem test_witness_invariant_decoding :
    (let s := { startedMachine with engine := .decoding (work 6 0 1 2 .padding), agenda := [.advance] }
     Inv s ∧ onNext (step s) (fun _ => true) = true) := by decide

theorem test_witness_rows :
    0 < idleMachine.operands.rows ∧ idleMachine.operands.rowIndex 0 = 1 ∧ idleMachine.operands.rowIndex 1 = 0 := by
  decide

end Sys2Proof.Tests
end

/-! The statements of family 40_bitfield_pixel_unpacker.md: where `widen` puts each bit of a token (R81), and what
UNPACK16 and UNPACK8 leave in memory and in the registers (R83 to R88). -/

namespace Sys2Proof.Unpack

open Sys2Proof.Machine

/-! ### The bits of `widen` -/

theorem nibbleMask_getLsbD {k : Nat} (hk : k ≤ 12) (i : Nat) :
    (0xF#16 <<< k).getLsbD i = decide (k ≤ i ∧ i < k + 4) := by
  have hones : (0xF#16).getLsbD (i - k) = decide (i - k < 4) := by
    rw [show 0xF#16 = (BitVec.allOnes 4).setWidth 16 from rfl, BitVec.getLsbD_setWidth, BitVec.getLsbD_allOnes]
    grind
  rw [BitVec.getLsbD_shiftLeft, hones]
  grind

/-- R81: each bit of the pixel is a bit of one of the token's three colour nibbles, or 0. -/
theorem widen_getLsbD (t : Half) (i : Nat) :
    (widen t).getLsbD i =
      if 12 ≤ i then t.getLsbD i
      else if 7 ≤ i ∧ i < 11 then t.getLsbD (i + 1)
      else if 1 ≤ i ∧ i < 5 then t.getLsbD (i + 3)
      else false := by
  have hmasks : widen t =
      (t &&& 0xF#16 <<< 12) ||| ((t &&& 0xF#16 <<< 8) >>> 1) ||| ((t &&& 0xF#16 <<< 4) >>> 3) := rfl
  have hhigh : 16 ≤ i → t.getLsbD i = false := BitVec.getLsbD_of_ge t i
  simp only [hmasks, BitVec.getLsbD_or, BitVec.getLsbD_and, BitVec.getLsbD_ushiftRight,
    nibbleMask_getLsbD (show 12 ≤ 12 by omega), nibbleMask_getLsbD (show 8 ≤ 12 by omega),
    nibbleMask_getLsbD (show 4 ≤ 12 by omega)]
  grind

/-- Settles O6: the bits of each field by `widen_getLsbD`. -/
theorem widenPlacesTheNibbles : Obligations.WidenPlacesTheNibbles := by
  intro t
  refine ⟨?red, ?gap11, ?green, ?gap5, ?blue, ?gap0⟩
  case red | green | blue =>
    refine BitVec.eq_of_getLsbD_eq fun i hi => ?_
    rw [BitVec.getLsbD_extractLsb', BitVec.getLsbD_extractLsb', widen_getLsbD]
    grind
  case gap11 | gap5 | gap0 =>
    refine BitVec.eq_of_getLsbD_eq fun i hi => ?_
    rw [BitVec.getLsbD_extractLsb', widen_getLsbD, BitVec.getLsbD_zero]
    grind

/-! ### The unpack of a frame -/

/-- R84 where the stream holds at least the unrounded rows: one of the two pitches fits. -/
theorem fit_of_payload_rows_le {o : Operands} {c : MemOp} (h : o.payload c * o.rows ≤ o.len) :
    o.fit c = some
      (if 4 * ((o.payload c + 3) / 4) * o.rows ≤ o.len then 4 * ((o.payload c + 3) / 4) else o.payload c,
        decide (o.len < 4 * ((o.payload c + 3) / 4) * o.rows)) := by
  rcases o.fit_cases c with ⟨hpad, hfit⟩ | ⟨hpad, -, hfit⟩ | ⟨hlt, -⟩
  · simp [hfit, hpad]
  · simp [hfit, hpad, Nat.not_le.mpr hpad]
  · omega

/-- R155: a frame that fits passes the fourth start check of every command. -/
theorem badFit_of_fit {o : Operands} {c : MemOp} {p : Nat × Bool} (h : o.fit c = some p) : o.badFit c = false := by
  cases c <;> simp [Operands.badFit, h]

/-- R86, R87: the completion of a pending UNPACK16 or UNPACK8. -/
theorem exec_unpack_of_pending {s : State} {c : MemOp} (hc : c = .unpack16 ∨ c = .unpack8)
    (hs : s.engine = .pending c.word) : exec (decodeCommand c.word) s = s.checked c fun s => s.unpack c := by
  have harm : exec (decodeCommand c.word) s = s.command c.word fun s => s.checked c fun s => s.unpack c := by
    rcases hc with rfl | rfl <;> rfl
  rw [harm, State.command_of_pending hs]

theorem unpack_of_fit {s : State} {c : MemOp} {stride : Nat} {align : Bool}
    (h : s.operands.fit c = some (stride, align)) :
    s.unpack c = .next (s.completed (unpackRows s.mem s.operands c stride s.operands.rows)
      (okReport (s.operands.rows * stride) align false)) := by
  rw [State.unpack, h]
  rfl

/-- Settles O17: the start checks pass, the fit test picks the pitch, and the copy is `unpackRows_spec`'s. -/
theorem unpackCopiesEveryRowUnchanged : Obligations.UnpackCopiesEveryRowUnchanged := by
  intro s c hc hm hs hdim hcfg hfits o u padded srcStride
  have hfit : o.fit c = some (srcStride, decide (o.len < padded * o.rows)) := fit_of_payload_rows_le hfits
  have hstart : o.startError c = none := Operands.startError_eq_none.mpr ⟨hdim, hcfg, badFit_of_fit hfit⟩
  obtain ⟨-, hcopied, hkept⟩ := unpackRows_spec (op := c) srcStride hm hcfg (Nat.le_refl o.rows)
  refine ⟨unpackRows s.mem o c srcStride o.rows, ?_, hcopied, hkept⟩
  rw [exec_unpack_of_pending hc hs, State.checked_of_ok hstart, unpack_of_fit hfit]

end Sys2Proof.Unpack

/-! The statement of family 41_nibble_rle_decoder.md: what a zero-count token does to a DECODE in progress (R104). -/

namespace Sys2Proof.DecodeTokens

open Sys2Proof.Machine

/-- The count of a token (R60) is what the mask 0x000F leaves of it. -/
theorem count_of_masked (t : Half) : (t &&& 0x000F#16).extractLsb' 0 4 = t.extractLsb' 0 4 := by
  rw [BitVec.extractLsb'_and, show (0x000F#16).extractLsb' 0 4 = BitVec.allOnes 4 from rfl, BitVec.and_allOnes]

/-- R61: a token with a zero count that is not the sentinel is a ZRUN. -/
theorem decodeItem_of_count_zero {t : Half} (hne : t ≠ 0#16) (hcount : t.extractLsb' 0 4 = 0#4) :
    decodeItem t = .zrun (t.extractLsb' 12 4) (t.extractLsb' 8 4) (t.extractLsb' 4 4) := by
  rw [decodeItem, if_neg hne, if_pos hcount]

/-- R104: a ZRUN in the item position, whatever its colour. -/
theorem exec_zrun_of_item {s : State} {d : DecodeWork} (hd : s.engine = .decoding d) (hp : d.pos = .item)
    (r g b : BitVec 4) : exec (.zrun r g b) s = .next s := by
  have harm : exec (.zrun r g b) s = s.atPosition d.pos fun _ => .next s := by rw [hp]; rfl
  rw [harm, State.atPosition_of_decoding hd]

/-- Settles O28: the token is a ZRUN by `decodeItem_of_count_zero`, and a ZRUN is no operation. -/
theorem zeroCountTokenIsNoOperation : Obligations.ZeroCountTokenIsNoOperation := by
  intro s d t hd hp hne hmask
  have hcount : t.extractLsb' 0 4 = 0#4 := by rw [← count_of_masked, hmask]; rfl
  rw [decodeItem_of_count_zero hne hcount, exec_zrun_of_item hd hp]

end Sys2Proof.DecodeTokens

/-! The statements of family 42_nibble_rle_encoder.md: where `narrow` puts each bit of a pixel (R121), and the masked
equality of pixels (R122). -/

namespace Sys2Proof.PixelQuantization

open Sys2Proof.Machine Sys2Proof.Unpack

/-! ### The bits of `narrow` and of the mask -/

/-- R121: each bit of the token is a bit of one of the four bits kept of each colour, or 0. -/
theorem narrow_getLsbD (p : Half) (i : Nat) :
    (narrow p).getLsbD i =
      if 12 ≤ i then p.getLsbD i
      else if 8 ≤ i then p.getLsbD (i - 1)
      else if 4 ≤ i then p.getLsbD (i - 3)
      else false := by
  have hmasks : narrow p =
      (p &&& 0xF#16 <<< 12) ||| ((p &&& 0xF#16 <<< 7) <<< 1) ||| ((p &&& 0xF#16 <<< 1) <<< 3) := rfl
  have hhigh : 16 ≤ i → p.getLsbD i = false := BitVec.getLsbD_of_ge p i
  simp only [hmasks, BitVec.getLsbD_or, BitVec.getLsbD_and, BitVec.getLsbD_shiftLeft (x := p &&& _),
    nibbleMask_getLsbD (show 12 ≤ 12 by omega), nibbleMask_getLsbD (show 7 ≤ 12 by omega),
    nibbleMask_getLsbD (show 1 ≤ 12 by omega)]
  grind

/-- R122: the mask keeps the bits of a pixel that `narrow` keeps. -/
theorem and_qmask_getLsbD (p : Half) (i : Nat) :
    (p &&& Config.qmask).getLsbD i =
      if 12 ≤ i ∨ (7 ≤ i ∧ i < 11) ∨ (1 ≤ i ∧ i < 5) then p.getLsbD i else false := by
  have hmask : Config.qmask = (0xF#16 <<< 12) ||| (0xF#16 <<< 7) ||| (0xF#16 <<< 1) := rfl
  have hhigh : 16 ≤ i → p.getLsbD i = false := BitVec.getLsbD_of_ge p i
  simp only [hmask, BitVec.getLsbD_and, BitVec.getLsbD_or,
    nibbleMask_getLsbD (show 12 ≤ 12 by omega), nibbleMask_getLsbD (show 7 ≤ 12 by omega),
    nibbleMask_getLsbD (show 1 ≤ 12 by omega)]
  grind

/-- A run's count stays in the low nibble of its token (R123). -/
theorem count_getLsbD_of_four_le {n i : Nat} (hn : n ≤ 15) (hi : 4 ≤ i) : (BitVec.ofNat 16 n).getLsbD i = false := by
  have hlt : n < 2 ^ i := calc
    n < 2 ^ 4 := by omega
    _ ≤ 2 ^ i := Nat.pow_le_pow_right (by omega) hi
  rw [BitVec.getLsbD_ofNat, Nat.testBit_lt_two_pow hlt, Bool.and_false]

/-! ### `narrow` and `widen` under the mask -/

theorem narrow_and_qmask (p : Half) : narrow (p &&& Config.qmask) = narrow p := by
  refine BitVec.eq_of_getLsbD_eq fun i _ => ?_
  simp only [narrow_getLsbD, and_qmask_getLsbD]
  grind

/-- R121: `widen` reads none of the token's count bits, and takes each colour bit back to its place. -/
theorem widen_runToken (p : Half) {n : Nat} (hn : n ≤ 15) : widen (runToken p n) = p &&& Config.qmask := by
  refine BitVec.eq_of_getLsbD_eq fun i _ => ?_
  have hcount : ∀ j, 4 ≤ j → (BitVec.ofNat 16 n).getLsbD j = false := fun j => count_getLsbD_of_four_le hn
  simp only [widen_getLsbD, and_qmask_getLsbD, runToken, BitVec.getLsbD_or, narrow_getLsbD]
  grind

theorem widen_narrow (p : Half) : widen (narrow p) = p &&& Config.qmask := by
  rw [← widen_runToken p (Nat.zero_le 15), runToken, BitVec.or_zero]

/-- Settles O7: the bits of each field by `narrow_getLsbD`, the inverse by `widen_runToken`. -/
theorem widenUndoesNarrowUpToTheMask : Obligations.WidenUndoesNarrowUpToTheMask := by
  refine ⟨fun p => ⟨?red, ?green, ?blue, ?count, (narrow_and_qmask p).symm⟩, fun p n hn => widen_runToken p hn⟩
  case red | green | blue =>
    refine BitVec.eq_of_getLsbD_eq fun i hi => ?_
    rw [BitVec.getLsbD_extractLsb', BitVec.getLsbD_extractLsb', narrow_getLsbD]
    grind
  case count =>
    refine BitVec.eq_of_getLsbD_eq fun i hi => ?_
    rw [BitVec.getLsbD_extractLsb', narrow_getLsbD, BitVec.getLsbD_zero]
    grind

/-! ### Masked equality -/

theorem meq_iff_and_qmask_eq {p q : Half} : meq p q = true ↔ p &&& Config.qmask = q &&& Config.qmask := beq_iff_eq

/-- R122: `narrow` depends on the masked pixel only, and `widen` gets the masked pixel back from it. -/
theorem meq_iff_narrow_eq {p q : Half} : meq p q = true ↔ narrow p = narrow q := by
  rw [meq_iff_and_qmask_eq]
  constructor
  · intro hmasked
    rw [← narrow_and_qmask p, hmasked, narrow_and_qmask]
  · intro hnarrow
    rw [← widen_narrow, hnarrow, widen_narrow]

/-- Settles O8: `meq` is equality of `narrow`, so the three laws are those of equality. -/
theorem maskedEqualityIsEqualityOfNarrow : Obligations.MaskedEqualityIsEqualityOfNarrow := by
  refine ⟨fun p q => ⟨meq_iff_and_qmask_eq, meq_iff_narrow_eq⟩, ?refl, ?symm, ?trans⟩
  case refl => exact fun p => meq_iff_narrow_eq.mpr rfl
  case symm => exact fun p q hpq => meq_iff_narrow_eq.mpr (meq_iff_narrow_eq.mp hpq).symm
  case trans =>
    exact fun p q r hpq hqr => meq_iff_narrow_eq.mpr ((meq_iff_narrow_eq.mp hpq).trans (meq_iff_narrow_eq.mp hqr))

end Sys2Proof.PixelQuantization

/-! The statements of family 44_command_dispatch.md: what a command word does to an idle block (R151), and CLEAR (R150). -/

namespace Sys2Proof.CommandDispatch

open Sys2Proof.Machine

/-! ### Command start -/

/-- DECODE has an arm of its own, since a DECODE in progress has a third transition; from idle it starts like the
others. -/
theorem execDecode_of_idle {s : State} (hidle : s.engine = .idle) : execDecode s = .next (s.start 1#32) := by
  rw [execDecode, hidle]

/-- R67, R173: a reserved word is held whole, both of its fields. -/
theorem execCmdReserved_of_idle {s : State} (hidle : s.engine = .idle) (v : Word) :
    execCmdReserved (v.extractLsb' 4 28) (v.extractLsb' 0 4) s = .next (s.start v) := by
  rw [execCmdReserved, reserved_fields, State.command_of_idle hidle]

/-- R151: the start is the same for all command words but CLEAR; the word is only kept. -/
theorem exec_decodeCommand_of_idle {s : State} {v : Word} (hidle : s.engine = .idle) (hv : v ≠ 0#32) :
    exec (decodeCommand v) s = .next (s.start v) := by
  rcases commandWord_cases v with hclear | rfl | rfl | rfl | rfl | rfl | hreserved
  · exact absurd hclear hv
  · exact execDecode_of_idle hidle
  · exact (State.command_of_idle hidle 2#32 _ : execEncode s = _)
  · exact (State.command_of_idle hidle 3#32 _ : execEncSize s = _)
  · exact (State.command_of_idle hidle 4#32 _ : execUnpack16 s = _)
  · exact (State.command_of_idle hidle 5#32 _ : execUnpack8 s = _)
  · rw [decodeCommand_of_lt hreserved]
    exact execCmdReserved_of_idle hidle v

/-- Settles O9: the fields the statement writes out are those of `State.start`. -/
theorem commandStartSetsBusyAndClearsResults : Obligations.CommandStartSetsBusyAndClearsResults :=
  fun _ _ hidle hv => exec_decodeCommand_of_idle hidle hv

/-! ### CLEAR -/

theorem exec_clear (s : State) : exec .clear s = if s.busy then .next s else .next s.clearResults := rfl

theorem exec_clear_of_idle {s : State} (hidle : s.engine = .idle) : exec .clear s = .next s.clearResults := by
  rw [exec_clear, State.busy_eq_false_iff.mpr hidle, if_neg Bool.false_ne_true]

theorem exec_clear_of_not_idle {s : State} (hbusy : s.engine ≠ .idle) : exec .clear s = .next s := by
  rw [exec_clear, if_pos (Bool.of_not_eq_false (mt State.busy_eq_false_iff.mp hbusy))]

/-- Settles O10: the fields the statement writes out are those of `State.clearResults`. -/
theorem clearResetsStatusAndResultsOnly : Obligations.ClearResetsStatusAndResultsOnly :=
  fun _ => ⟨exec_clear_of_idle, exec_clear_of_not_idle⟩

end Sys2Proof.CommandDispatch

/-! The statement of family 60_exceptions.md: how a reserved command word completes (R173). -/

namespace Sys2Proof.StartCheckErrors

open Sys2Proof.Machine

/-- R175: row and offset are 0, and so is every result that an error clears (R176). -/
theorem raiseAtStart_report (s : State) (e : ErrCode) : (s.raiseAtStart e).report = errReport e 0 0 := by
  by_cases he : e = .noError
  · rw [he]
    rfl
  · exact CmdOutcome.report_of_error he

/-- R177: an error of a start check is a completion that leaves memory unchanged. -/
theorem raiseAtStart_eq_completed (s : State) (e : ErrCode) :
    s.raiseAtStart e = s.completed s.mem (errReport e 0 0) :=
  calc s.raiseAtStart e
    _ = { s.completed s.mem (errReport e 0 0) with report := (s.raiseAtStart e).report } := rfl
    _ = s.completed s.mem (errReport e 0 0) := by rw [raiseAtStart_report]; rfl

/-- R173: start check number 1, made before any operand is looked at. -/
theorem execCmdReserved_of_pending {s : State} {v : Word} (hpending : s.engine = .pending v) :
    execCmdReserved (v.extractLsb' 4 28) (v.extractLsb' 0 4) s = .next (s.raiseAtStart .unsupportedCompression) := by
  rw [execCmdReserved, reserved_fields, State.command_of_pending hpending]

/-- Settles O12: the word decodes to a reserved one that holds it whole, so it is the pending word and completes. -/
theorem reservedCommandCompletesUnsupported : Obligations.ReservedCommandCompletesUnsupported := by
  intro s v hpending hreserved
  rw [decodeCommand_of_lt hreserved, ← raiseAtStart_eq_completed]
  exact execCmdReserved_of_pending hpending

end Sys2Proof.StartCheckErrors

/-! The statements of family other, 30_encoding.md: the decoder and the encoder undo each other (R60, R61, R66, R67). -/

namespace Sys2Proof.RoundTrip

open Sys2Proof.Machine

/-! ### The decoder on the stored bytes of a word -/

theorem decode_command_bytesOfWord (v : Word) (rest : List Byte) :
    decode .command (bytesOfWord v ++ rest) = .ok (decodeCommand v, rest) := by
  simp [bytesOfWord, decode]

theorem decode_item_bytesOfHalf (t : Half) (rest : List Byte) :
    decode .item (bytesOfHalf t ++ rest) = .ok (decodeItem t, rest) := by
  simp [bytesOfHalf, decode]

theorem decode_padding_bytesOfHalf (v : Half) (rest : List Byte) :
    decode .padding (bytesOfHalf v ++ rest) = .ok (.pad v, rest) := by
  simp [bytesOfHalf, decode, decodePad]

/-- Where the decoder answers, the bytes were a whole stored word and what follows it, one case for each slot. -/
theorem decode_ok_cases {slot : Slot} {bytes rest : List Byte} {i : Instr} (h : decode slot bytes = .ok (i, rest)) :
    (slot = .command ∧ ∃ v, i = decodeCommand v ∧ bytes = bytesOfWord v ++ rest) ∨
    (slot = .item ∧ ∃ t, i = decodeItem t ∧ bytes = bytesOfHalf t ++ rest) ∨
    (slot = .padding ∧ ∃ v, i = .pad v ∧ bytes = bytesOfHalf v ++ rest) := by
  unfold decode at h
  split at h
  case h_1 b0 b1 b2 b3 _ => cases h; exact .inl ⟨rfl, wordOfBytes b0 b1 b2 b3, rfl, by simp⟩
  case h_3 b0 b1 _ => cases h; exact .inr (.inl ⟨rfl, halfOfBytes b0 b1, rfl, by simp⟩)
  case h_5 b0 b1 _ => cases h; exact .inr (.inr ⟨rfl, halfOfBytes b0 b1, rfl, by simp⟩)
  all_goals cases h

/-! ### The decoded instruction -/

theorem decodeCommand_reserved {zero : BitVec 28} {op : BitVec 4} (h : (Instr.cmdReserved zero op).wellFormed = true) :
    decodeCommand (zero ++ op) = .cmdReserved zero op := by
  rw [decodeCommand_of_lt (cmdReserved_wellFormed.mp h), reserved_zero, reserved_op]

/-- R66, R67: every word written to CMD is the word of the instruction it decodes to. -/
theorem decodeCommand_spec (v : Word) :
    (decodeCommand v).wellFormed = true ∧ (decodeCommand v).slot = .command ∧
      encode (decodeCommand v) = bytesOfWord v := by
  rcases commandWord_cases v with rfl | rfl | rfl | rfl | rfl | rfl | hreserved
  case inr.inr.inr.inr.inr.inr =>
    rw [decodeCommand_of_lt hreserved]
    refine ⟨cmdReserved_wellFormed.mpr ?_, rfl, ?_⟩
    · rwa [reserved_fields]
    · rw [encode, reserved_fields]
  all_goals exact ⟨rfl, rfl, rfl⟩

theorem zrun_wellFormed {r g b : BitVec 4} :
    (Instr.zrun r g b).wellFormed = true ↔ ¬ (r = 0#4 ∧ g = 0#4 ∧ b = 0#4) := by
  simp [Instr.wellFormed]
  tauto

theorem run_wellFormed {r g b n : BitVec 4} : (Instr.run r g b n).wellFormed = true ↔ n ≠ 0#4 := by
  simp [Instr.wellFormed]

/-- R60, R61: every word in the item position is the word of the instruction it decodes to. -/
theorem decodeItem_spec (t : Half) :
    (decodeItem t).wellFormed = true ∧ (decodeItem t).slot = .item ∧ encode (decodeItem t) = bytesOfHalf t := by
  rw [← tokenWord_fields t]
  generalize t.extractLsb' 12 4 = r, t.extractLsb' 8 4 = g, t.extractLsb' 4 4 = b, t.extractLsb' 0 4 = n
  rw [decodeItem_tokenWord]
  by_cases hn : n = 0#4
  · subst hn
    by_cases hcolour : r = 0#4 ∧ g = 0#4 ∧ b = 0#4
    · obtain ⟨rfl, rfl, rfl⟩ := hcolour
      exact ⟨rfl, rfl, rfl⟩
    · rw [if_pos rfl, if_neg hcolour]
      exact ⟨zrun_wellFormed.mpr hcolour, rfl, rfl⟩
  · rw [if_neg hn]
    exact ⟨run_wellFormed.mpr hn, rfl, rfl⟩

theorem decodeItem_zrun {r g b : BitVec 4} (h : (Instr.zrun r g b).wellFormed = true) :
    decodeItem (tokenWord r g b 0#4) = .zrun r g b := by
  rw [decodeItem_tokenWord, if_pos rfl, if_neg (zrun_wellFormed.mp h)]

theorem decodeItem_run {r g b n : BitVec 4} (h : (Instr.run r g b n).wellFormed = true) :
    decodeItem (tokenWord r g b n) = .run r g b n := by
  rw [decodeItem_tokenWord, if_neg (run_wellFormed.mp h)]

/-- Two stored bytes as the fields of a token (R60). -/
theorem halfOfBytes_nibbles (r g b n : BitVec 4) : halfOfBytes (b ++ n) (r ++ g) = tokenWord r g b n := by
  refine BitVec.eq_of_getLsbD_eq fun i _ => ?_
  rw [halfOfBytes_getLsbD, tokenWord_getLsbD, BitVec.getLsbD_append, BitVec.getLsbD_append]
  grind

/-! ### The statements -/

/-- Settles O1: each encoding is the stored bytes of one word, which the decoder of the slot takes whole. -/
theorem decodingAnEncodedInstructionGivesItBack : Obligations.DecodingAnEncodedInstructionGivesItBack := by
  intro i rest hwf
  cases i with
  | clear | decode | encode | encSize | unpack16 | unpack8 => exact decode_command_bytesOfWord _ rest
  | cmdReserved zero op => exact (decode_command_bytesOfWord _ rest).trans (by rw [decodeCommand_reserved hwf])
  | eor => exact decode_item_bytesOfHalf _ rest
  | zrun r g b => exact (decode_item_bytesOfHalf _ rest).trans (by rw [decodeItem_zrun hwf])
  | run r g b n => exact (decode_item_bytesOfHalf _ rest).trans (by rw [decodeItem_run hwf])
  | pad v => exact decode_padding_bytesOfHalf v rest

/-- Settles O2: what was read is one stored word, and `decodeCommand_spec` and `decodeItem_spec` say what it is the
encoding of. -/
theorem decodedInstructionsEncodeToTheBytesRead : Obligations.DecodedInstructionsEncodeToTheBytesRead := by
  intro slot bytes i rest hdecode
  rcases decode_ok_cases hdecode with ⟨rfl, v, rfl, rfl⟩ | ⟨rfl, t, rfl, rfl⟩ | ⟨rfl, v, rfl, rfl⟩
  · obtain ⟨hwf, hslot, hbytes⟩ := decodeCommand_spec v
    exact ⟨hwf, hslot, by rw [hbytes]⟩
  · obtain ⟨hwf, hslot, hbytes⟩ := decodeItem_spec t
    exact ⟨hwf, hslot, by rw [hbytes]⟩
  · exact ⟨rfl, rfl, rfl⟩

/-- Settles O3: the two bytes are the token word of the four nibbles, whose class is `decodeItem_tokenWord`'s. -/
theorem tokenClassAndFieldsFromStoredBytes : Obligations.TokenClassAndFieldsFromStoredBytes := by
  intro r g b n rest
  rw [decode, halfOfBytes_nibbles, decodeItem_tokenWord]

/-- Settles O4: the six words by evaluation, every other one by `decodeCommand_of_lt`. -/
theorem commandWordsAreDecodedOnAllBits : Obligations.CommandWordsAreDecodedOnAllBits := by
  refine ⟨rfl, rfl, rfl, rfl, rfl, rfl, fun v hreserved => ?_⟩
  exact ⟨_, _, decodeCommand_of_lt hreserved, reserved_fields v⟩

/-- Settles O5: seven words written out, each decoded by evaluation. -/
theorem sampleWordsDecodeAsTheSpecSays : Obligations.SampleWordsDecodeAsTheSpecSays := by
  refine ⟨?run, ?zrun, ?eor, ?pad, ?command, ?reserved, ?truncated⟩ <;> decide

end Sys2Proof.RoundTrip

/-! The statements of family other, 44_command_dispatch.md and 60_exceptions.md: what a command word does to a pending
command (R14, R153), the start checks that fail (R155, R171, R172, R174), and independence of earlier results (R158). -/

namespace Sys2Proof.PendingCommand

open Sys2Proof.Machine Sys2Proof.CommandDispatch Sys2Proof.StartCheckErrors

/-! ### The completion of a pending memory command -/

/-- The work of a command's unit once its start checks have passed (R154). -/
def unitWork (c : MemOp) (s : State) : Answer :=
  match c with
  | .decode => { s with engine := .decoding .start }.finishFrame
  | .encode => s.encodeFrame .encode { base := s.operands.stream, cap := s.operands.len, writing := true }
  | .encSize => s.encodeFrame .encSize { base := s.operands.stream, cap := Config.encSizeCap, writing := false }
  | .unpack16 => s.unpack .unpack16
  | .unpack8 => s.unpack .unpack8

theorem finishFrame_of_idle {s : State} (h : s.engine = .idle) : s.finishFrame = .next s := by
  rw [State.finishFrame, h]

theorem finishFrame_of_decoding {s : State} {d : DecodeWork} (h : s.engine = .decoding d) :
    s.finishFrame = runTokens (s.operands.tokenFuel d) s := by
  rw [State.finishFrame, h]

theorem execDecode_of_pending {s : State} (h : s.engine = .pending 1#32) : execDecode s = s.openFrame.finishFrame := by
  simp [execDecode, h]

theorem execDecode_of_decoding {s : State} {d : DecodeWork} (h : s.engine = .decoding d) :
    execDecode s = s.finishFrame := by
  rw [execDecode, h]

/-- R155: every memory command completes by its start checks, then by the work of its unit. -/
theorem exec_memOp_of_pending {s : State} {c : MemOp} (h : s.engine = .pending c.word) :
    exec (decodeCommand c.word) s = s.checked c (unitWork c) := by
  cases c with
  | decode =>
    refine (execDecode_of_pending h).trans ?_
    rcases s.openFrame_cases with ⟨e, he, hopen⟩ | ⟨hnone, hopen⟩ <;> rw [hopen]
    · rw [State.checked_of_error he, finishFrame_of_idle (State.raiseAtStart_engine s e)]
    · rw [State.checked_of_ok hnone, unitWork]
  | encode => exact (State.command_of_pending h _ : execEncode s = _)
  | encSize => exact (State.command_of_pending h _ : execEncSize s = _)
  | unpack16 => exact (State.command_of_pending h _ : execUnpack16 s = _)
  | unpack8 => exact (State.command_of_pending h _ : execUnpack8 s = _)

/-- R175, R177: a failed start check completes the command and leaves memory alone. -/
theorem exec_memOp_of_startError {s : State} {c : MemOp} {e : ErrCode} (h : s.engine = .pending c.word)
    (he : s.operands.startError c = some e) :
    exec (decodeCommand c.word) s = .next (s.completed s.mem (errReport e 0 0)) := by
  rw [exec_memOp_of_pending h, State.checked_of_error he, raiseAtStart_eq_completed]

theorem exec_memOp_of_startOk {s : State} {c : MemOp} (h : s.engine = .pending c.word)
    (hnone : s.operands.startError c = none) : exec (decodeCommand c.word) s = unitWork c s := by
  rw [exec_memOp_of_pending h, State.checked_of_ok hnone]

/-- R175, R177: an error while rows are processed is a completion that draws a free write set. -/
theorem raiseInRows_eq_completed (s : State) (c : MemOp) {e : ErrCode} (h : e ≠ .noError) (row off : Nat) :
    s.raiseInRows c { err := e, row := row, off := off } =
      { s with draws := s.draws + 1 }.completed (Memory.unspecify s.mem c s.operands s.draws)
        (errReport e row off) := by
  simp [State.raiseInRows, State.finish, CmdOutcome.report, h, State.completed, errReport]

/-! ### Which start check fails first (R155, R179) -/

theorem startError_of_badDimensions {o : Operands} (h : o.badDimensions = true) (c : MemOp) :
    o.startError c = some .dimensionError := by
  rw [Operands.startError, if_pos h]

theorem startError_of_badConfig {o : Operands} {c : MemOp} (hdim : o.badDimensions = false)
    (h : o.badConfig c = true) : o.startError c = some .configError := by
  rw [Operands.startError, if_neg (by simp [hdim]), if_pos h]

theorem startError_of_badFit {o : Operands} {c : MemOp} (hdim : o.badDimensions = false)
    (hcfg : o.badConfig c = false) (h : o.badFit c = true) : o.startError c = some .insufficientPixelData := by
  rw [Operands.startError, if_neg (by simp [hdim]), if_neg (by simp [hcfg]), if_pos h]

/-- R171 on integers. -/
theorem badDimensions_eq_true {o : Operands} :
    o.badDimensions = true ↔ o.width.toInt ≤ 0 ∨ o.height.toInt = 0 := by
  simp [Operands.badDimensions]

theorem bpp_eq (c : MemOp) : c.bpp = if c = .unpack8 then 1 else 2 := by cases c <;> rfl

/-- The fourth start check of an unpack (R155): neither row length fits. -/
theorem badFit_of_fit_none {o : Operands} {c : MemOp} (hc : c = .unpack16 ∨ c = .unpack8) (h : o.fit c = none) :
    o.badFit c = true := by
  rcases hc with rfl | rfl <;> rw [Operands.badFit, h] <;> rfl

/-- R84: the stream is too short for the unrounded rows, so also for the padded ones. -/
theorem fit_eq_none {o : Operands} {c : MemOp} (h : o.len < o.payload c * o.rows) : o.fit c = none := by
  rcases o.fit_cases c with ⟨hpadded, -⟩ | ⟨-, hfits, -⟩ | ⟨-, hnone⟩
  · have hle : o.payload c * o.rows ≤ 4 * ((o.payload c + 3) / 4) * o.rows := Nat.mul_le_mul_right _ (by omega)
    omega
  · omega
  · exact hnone

/-! ### The statements -/

/-- Settles O11: CLEAR changes the results only, and the start of a command sets all of them anew. -/
theorem commandsAreIndependentOfEarlierResults : Obligations.CommandsAreIndependentOfEarlierResults := by
  intro s v t hidle hv hclear
  obtain rfl : s.clearResults = t := by
    rw [exec_clear_of_idle hidle] at hclear
    cases hclear
    rfl
  have hcleared : s.clearResults.engine = .idle := hidle
  rw [exec_decodeCommand_of_idle hidle hv, exec_decodeCommand_of_idle hcleared hv]
  rfl

/-- Settles O13: the dimensions are the first of the start checks. -/
theorem badDimensionsCompleteWithDimensionError : Obligations.BadDimensionsCompleteWithDimensionError :=
  fun _ c hpending hdim =>
    exec_memOp_of_startError hpending (startError_of_badDimensions (badDimensions_eq_true.mpr hdim) c)

/-- Settles O14: each of the four conditions denies one part of `badConfig_eq_false`. -/
theorem badLayoutCompletesWithConfigError : Obligations.BadLayoutCompletesWithConfigError := by
  intro s c hpending hwidth hheight hlayout
  have hdim : s.operands.badDimensions = false := Operands.badDimensions_eq_false.mpr ⟨hwidth, hheight⟩
  refine exec_memOp_of_startError hpending (startError_of_badConfig hdim ?_)
  rw [← bpp_eq c] at hlayout
  by_contra hgood
  obtain ⟨hstride, hpend, hstream⟩ := Operands.badConfig_eq_false.mp (Bool.eq_false_of_not_eq_true hgood)
  rcases hlayout with hrow | hend | ⟨hsize, hregion⟩
  · exact absurd hstride (Nat.not_le.mpr hrow)
  · exact absurd hpend (Nat.not_le.mpr hend)
  · obtain ⟨hsend, hapart⟩ := hstream hsize
    rcases hregion with hover | ⟨hlen, hbelow, habove⟩
    · exact absurd hsend (Nat.not_le.mpr hover)
    · rcases hapart with hzero | hafter | hbefore
      · exact absurd hzero hlen.ne'
      · exact absurd hafter (Nat.not_le.mpr hbelow)
      · exact absurd hbefore (Nat.not_le.mpr habove)

/-- Settles O15: CLEAR is ignored while BUSY, and every other word finds that the pending one is not its own. -/
theorem otherCommandWordsAreIgnoredWhilePending : Obligations.OtherCommandWordsAreIgnoredWhilePending := by
  intro s v w hpending hne
  rcases commandWord_cases w with rfl | rfl | rfl | rfl | rfl | rfl | hreserved
  · exact exec_clear_of_not_idle (by simp [hpending])
  · have hdecode : execDecode s = .next s := by simp [execDecode, hpending, hne.symm]
    exact hdecode
  · exact (State.command_of_other hpending hne.symm _ : execEncode s = _)
  · exact (State.command_of_other hpending hne.symm _ : execEncSize s = _)
  · exact (State.command_of_other hpending hne.symm _ : execUnpack16 s = _)
  · exact (State.command_of_other hpending hne.symm _ : execUnpack8 s = _)
  · have hword : v ≠ w.extractLsb' 4 28 ++ w.extractLsb' 0 4 := by rw [reserved_fields]; exact hne.symm
    rw [decodeCommand_of_lt hreserved]
    exact (State.command_of_other hpending hword _ : execCmdReserved _ _ s = _)

/-- Settles O16: the fit test is the fourth start check of the two unpack commands. -/
theorem unpackOfTooShortStreamIsInsufficient : Obligations.UnpackOfTooShortStreamIsInsufficient :=
  fun _ _ hc hpending hdim hcfg hshort =>
    exec_memOp_of_startError hpending (startError_of_badFit hdim hcfg (badFit_of_fit_none hc (fit_eq_none hshort)))

end Sys2Proof.PendingCommand

/-! The statements of family other, 20_memory.md: where the stream rows lie in the pixel buffer (R47), and that every
address a command forms lies below 2^32 (R49, R58). -/

namespace Sys2Proof.RowPlacement

open Sys2Proof.Machine Sys2Proof.PendingCommand

/-- R48: the payload bytes of the pixel buffer, by stream row and column of bytes. -/
theorem inPixels_iff_rowaddr {o : Operands} {c : MemOp} (hcfg : o.badConfig c = false) (a : Nat) :
    o.inPixels c a = true ↔ ∃ k j, k < o.rows ∧ j < o.payload c ∧ a = o.rowaddr k + j := by
  rw [Operands.inPixels_eq_true hcfg]
  constructor
  · rintro ⟨r, hr, hfrom, hto⟩
    obtain ⟨k, hk, rfl⟩ := Operands.exists_rowIndex hr
    exact ⟨k, a - o.rowaddr k, hk, by rw [Operands.rowaddr]; omega, by rw [Operands.rowaddr]; omega⟩
  · rintro ⟨k, j, hk, hj, rfl⟩
    exact ⟨o.rowIndex k, Operands.rowIndex_lt hk, Nat.le_add_right .., Nat.add_lt_add_left hj _⟩

/-- A byte in no row's payload is not a payload byte. -/
theorem inPixels_eq_false {o : Operands} {c : MemOp} (hcfg : o.badConfig c = false) {a : Nat} :
    o.inPixels c a = false ↔ ∀ k j, k < o.rows → j < o.payload c → a ≠ o.rowaddr k + j := by
  rw [← Bool.not_eq_true, inPixels_iff_rowaddr hcfg]
  constructor
  · exact fun hout k j hk hj ha => hout ⟨k, j, hk, hj, ha⟩
  · rintro hout ⟨k, j, hk, hj, ha⟩
    exact hout k j hk hj ha

/-- R48, where the start checks pass. -/
theorem readSet_of_startOk {o : Operands} {c : MemOp} (hnone : o.startError c = none) (a : Nat) :
    o.readSet c a = match c with
      | .decode => o.inStream o.len a
      | .encode | .encSize => o.inPixels c a
      | .unpack16 | .unpack8 => o.inStream (o.rows * ((o.fit c).getD (0, false)).1) a := by
  cases c <;> simp [Operands.readSet, hnone]

/-- R48, where the start checks pass. -/
theorem writeSet_of_startOk {o : Operands} {c : MemOp} (hnone : o.startError c = none) (a : Nat) :
    o.writeSet c a = match c with
      | .encode => o.inStream o.len a
      | .encSize => false
      | .decode | .unpack16 | .unpack8 => o.inPixels c a := by
  cases c <;> simp [Operands.writeSet, hnone]

/-- Settles O57: `rowaddr` by its definition, and the placement of rows by `rowIndex_inj` and `exists_rowIndex`. -/
theorem rowPlacementIsAPermutation : Obligations.RowPlacementIsAPermutation := by
  refine fun o => ⟨fun k => ?_, fun r hr => ?_⟩
  · simp only [Operands.rowaddr, Operands.bufferRow, Operands.rowIndex, Operands.bottomUp, Operands.rows,
      decide_eq_true_eq]
  · obtain ⟨k, hk, hindex⟩ := Operands.exists_rowIndex hr
    exact ⟨k, hk, hindex, fun j hj hsame => Operands.rowIndex_inj hj hk (hsame.trans hindex.symm)⟩

/-- The fit test of an unpack that passes its start checks (R155, R84). -/
theorem payload_rows_le_of_badFit {o : Operands} {c : MemOp} (hc : c = .unpack16 ∨ c = .unpack8)
    (h : o.badFit c = false) : o.payload c * o.rows ≤ o.len := by
  by_contra hshort
  have hbad := badFit_of_fit_none hc (fit_eq_none (Nat.not_le.mp hshort))
  simp [h] at hbad

/-- R85: a byte of a stream row lies before the end of the last row. -/
theorem row_byte_lt {k j u pitch n : Nat} (hk : k < n) (hj : j < u) (hu : u ≤ pitch) : k * pitch + j < pitch * n :=
  calc k * pitch + j
    _ < k * pitch + pitch := by omega
    _ = (k + 1) * pitch := by rw [Nat.succ_mul]
    _ ≤ n * pitch := Nat.mul_le_mul_right _ hk
    _ = pitch * n := Nat.mul_comm ..

/-- Settles O58: pixels end at the row's payload, stream bytes at `send`, and the pitch is the fit test's. -/
theorem everyFormedAddressIsInTheAddressSpace : Obligations.EveryFormedAddressIsInTheAddressSpace := by
  intro o c hstart
  obtain ⟨-, hcfg, hbadFit⟩ := Operands.startError_eq_none.mp hstart
  have hstream : c ≠ .encSize → ∀ i, i < o.len → o.stream + i < 2 ^ 32 := fun hc i hi => by
    have hsend := ((Operands.badConfig_eq_false.mp hcfg).2.2 hc).1
    rw [Operands.send] at hsend
    omega
  refine ⟨fun k i b hk hi hb => ?_, hstream, ?_⟩
  · have hend := Operands.rowaddr_end_le hcfg hk
    have hpixel : i * c.bpp + b < c.bpp * o.cols := row_byte_lt hi hb le_rfl
    rw [Operands.payload, Nat.mul_comm] at hend
    rw [Nat.mul_comm c.bpp i]
    omega
  · intro hc u pitch
    have hfits : u * o.rows ≤ o.len := payload_rows_le_of_badFit hc hbadFit
    refine ⟨by rw [Unpack.fit_of_payload_rows_le hfits]; rfl, fun k j hk hj => ?_⟩
    have hpitch : u ≤ pitch ∧ pitch * o.rows ≤ o.len := by
      by_cases hpadded : 4 * ((u + 3) / 4) * o.rows ≤ o.len
      · exact ⟨by simp only [pitch, if_pos hpadded]; omega, by simpa only [pitch, if_pos hpadded] using hpadded⟩
      · simpa only [pitch, if_neg hpadded] using ⟨le_refl u, hfits⟩
    have hbyte : k * pitch + j < o.len := (row_byte_lt hk hj hpitch.1).trans_le hpitch.2
    exact ⟨hbyte, hstream (by rcases hc with rfl | rfl <;> decide) _ hbyte⟩

end Sys2Proof.RowPlacement

/-! The statement of family other, 43_run_length_bitstream_serializer.md: one word (R141); and what a pass of the
encoder over a frame can end in (R125, R126, R175). -/

namespace Sys2Proof.EncodePass

open Sys2Proof.Machine Sys2Proof.PendingCommand

/-- Settles O22: the two branches of `put16_cases`, the bytes by the law of a two-byte write. -/
theorem putWordTestsCapacityThenWrites : Obligations.PutWordTestsCapacityThenWrites := by
  intro sink k v z hm hspace
  rcases put16_cases sink k v z with ⟨hfull, hput⟩ | ⟨hroom, hput⟩
  · exact ⟨fun _ => hput, fun hroom => absurd hroom (by omega)⟩
  · refine ⟨fun hfull => absurd hfull (by omega), fun _ => ⟨_, hput, fun hsilent => ?_, fun hwriting => ?_⟩⟩
    · rw [hsilent, if_neg Bool.false_ne_true]
    have hread := Memory.read_write16 hm (a := sink.base + z.cur) (by omega) v
    rw [if_pos hwriting]
    refine ⟨?_, ?_, fun a hlow hhigh => ?_⟩
    · rw [hread, if_pos rfl]
    · rw [hread, if_neg (by omega), if_pos rfl]
    · rw [hread, if_neg hlow, if_neg hhigh]

/-! ### The work of a pass over the frame -/

/-- Where a pass stands before its first word (R125). -/
def atStart (s : State) : Serializer := { cur := 0, c0 := 0, mem := s.mem }

theorem encodeFrame_of_ok {s : State} {sink : Sink} {z : Serializer} (c : MemOp)
    (h : encodeRows s.mem s.operands sink (atStart s) 0 s.operands.rows = .ok z) :
    s.encodeFrame c sink = .next (s.completed z.mem (okReport z.cur false false)) := by
  rw [atStart] at h
  rw [State.encodeFrame, h]
  rfl

theorem encodeFrame_of_error {s : State} {sink : Sink} {e : Raise} (c : MemOp)
    (h : encodeRows s.mem s.operands sink (atStart s) 0 s.operands.rows = .error e) :
    s.encodeFrame c sink = .next (s.raiseInRows c e) := by
  rw [atStart] at h
  rw [State.encodeFrame, h]

/-- R125, R126: a pass whose sink holds the whole frame. -/
theorem encodeFrame_of_fits {s : State} {sink : Sink} (c : MemOp)
    (hfits : frameBytes s.operands s.mem ≤ sink.cap) :
    ∃ m, s.encodeFrame c sink = .next (s.completed m (okReport (frameBytes s.operands s.mem) false false)) ∧
      (sink.writing = false → m = s.mem) ∧
      (sink.writing = true → Memory.wf s.mem → sink.base + sink.cap ≤ 2 ^ 32 →
        Memory.wf m ∧ Memory.holds m sink.base (rowsWords s.operands s.mem s.operands.rows) ∧
        ∀ a, (a < sink.base ∨ sink.base + frameBytes s.operands s.mem ≤ a) →
          Memory.read m a = Memory.read s.mem a) := by
  rcases encodeRows_cases (src := s.mem) (o := s.operands) (sink := sink) (z := atStart s) (k := 0) s.operands.rows rfl
      (Nat.zero_le _) with ⟨-, z, hz, hcur, hsilent, hwrites⟩ | ⟨j, -, hj, -, hover, -⟩
  · rw [Nat.zero_add] at hcur hwrites
    refine ⟨z.mem, ?_, hsilent, fun hwriting hm hspace => ?_⟩
    · rw [encodeFrame_of_ok c hz, hcur]
      rfl
    · obtain ⟨hwf, hwords, hkept⟩ := hwrites hwriting hm hspace
      refine ⟨hwf, fun i v hv => hwords i v (Nat.zero_le _) hv, fun a ha => hkept a ?_⟩
      rw [hcur]
      exact ha
  · obtain ⟨l, hl⟩ := rowsWords_add s.operands s.mem (j + 1) (s.operands.rows - (j + 1))
    have hlen := congrArg List.length hl
    rw [List.length_append, show j + 1 + (s.operands.rows - (j + 1)) = s.operands.rows by omega] at hlen
    rw [frameBytes] at hfits
    omega

/-- R175, R177: a pass whose sink is too small ends in the row where the room ends. -/
theorem encodeFrame_of_overflow {s : State} {sink : Sink} (c : MemOp)
    (hover : sink.cap < frameBytes s.operands s.mem) :
    ∃ k, k < s.operands.rows ∧ 2 * (rowsWords s.operands s.mem k).length ≤ sink.cap ∧
      sink.cap < 2 * (rowsWords s.operands s.mem (k + 1)).length ∧
      s.encodeFrame c sink = .next
        ({ s with draws := s.draws + 1 }.completed (Memory.unspecify s.mem c s.operands s.draws)
          (errReport .allocationFailure k (2 * (sink.cap / 2)))) := by
  rcases encodeRows_cases (src := s.mem) (o := s.operands) (sink := sink) (z := atStart s) (k := 0) s.operands.rows rfl
      (Nat.zero_le _) with ⟨hfits, -⟩ | ⟨j, -, hj, hbelow, habove, herr⟩
  · rw [Nat.zero_add] at hfits
    exact absurd hover (Nat.not_lt.mpr hfits)
  · refine ⟨j, by omega, hbelow, habove, ?_⟩
    rw [encodeFrame_of_error c herr, raiseInRows_eq_completed s c (by decide)]

end Sys2Proof.EncodePass

/-! The statements of family other about every step: a running command completes inside its write set (R153, R177), and
each step keeps the invariant and does not fault (R16, R20, R21, R40, R49, R190). -/

namespace Sys2Proof.StepInvariant

open Sys2Proof.Machine Sys2Proof.CommandDispatch Sys2Proof.StartCheckErrors Sys2Proof.PendingCommand
  Sys2Proof.RowPlacement Sys2Proof.EncodePass

/-! ### The completion of a running command -/

/-- What every completion of the command running in `s` leaves (R153, R177). -/
structure Completion (s t : State) : Prop where
  ended : t.Ended
  wf : Memory.wf t.mem
  operands : t.operands = s.operands
  rst : t.rst = s.rst
  frame : ∀ a, s.mayWrite a = false → Memory.read t.mem a = Memory.read s.mem a

theorem startError_raisedByBlock {o : Operands} {c : MemOp} {e : ErrCode} (h : o.startError c = some e) :
    e.raisedByBlock = true := by
  unfold Operands.startError at h
  split_ifs at h <;> cases h <;> rfl

theorem raiseAtStart_completion {s : State} {e : ErrCode} (hm : Memory.wf s.mem) (he : e.raisedByBlock = true) :
    Completion s (s.raiseAtStart e) where
  ended := State.finish_ended _ _ fun _ => he
  wf := hm
  operands := rfl
  rst := rfl
  frame := fun _ _ => rfl

theorem raiseInRows_completion {s : State} {c : MemOp} {r : Raise} (hm : Memory.wf s.mem) (hop : s.op = some c.word)
    (hr : r.err.raisedByBlock = true) : Completion s (s.raiseInRows c r) where
  ended := State.finish_ended _ _ fun _ => hr
  wf := Memory.wf_unspecify hm
  operands := rfl
  rst := rfl
  frame := fun a ha => by
    rw [State.mayWrite_of_op hop] at ha
    rw [State.raiseInRows_mem, Memory.read_unspecify hm, if_neg (by simp [ha])]

theorem succeed_completion {s : State} {m : Memory} {used : Nat} {align short : Bool} (hm : Memory.wf m)
    (hframe : ∀ a, s.mayWrite a = false → Memory.read m a = Memory.read s.mem a) :
    Completion s (s.succeed m used align short) where
  ended := State.finish_ended _ _ fun h => absurd rfl h
  wf := hm
  operands := rfl
  rst := rfl
  frame := hframe

/-- A DECODE that ran to its end inside its bounds. -/
theorem decodeFrame_completion {s t : State} (hop : s.op = some MemOp.decode.word)
    (hnone : s.operands.startError .decode = none) (hframe : s.DecodeFrame t) (hend : t.Ended) : Completion s t := by
  obtain ⟨hoperands, -, hrst, -, -, hm, hkept⟩ := hframe
  refine ⟨hend, hm, hoperands, hrst, fun a ha => hkept a ?_⟩
  rwa [State.mayWrite_of_op hop, writeSet_of_startOk hnone] at ha

theorem op_of_pending {s : State} {v : Word} (h : s.engine = .pending v) : s.op = some v := by rw [State.op, h]

theorem op_of_decoding {s : State} {d : DecodeWork} (h : s.engine = .decoding d) : s.op = some 1#32 := by
  rw [State.op, h]

/-- The decoder's bounds hold where a frame is opened (R20, R108). -/
theorem start_ok {o : Operands} (hnone : o.startError .decode = none) : DecodeWork.start.ok o := by
  have hrows := (Operands.one_le_of_dimensions (Operands.startError_eq_none.mp hnone).1).2
  exact ⟨hnone, hrows, Nat.zero_le _, Nat.zero_le _, rfl, rfl, le_rfl, by simp [DecodeWork.start]⟩

/-- The encoder's frame, for a pass that writes only where it may. -/
theorem encodeFrame_completes {s : State} {c : MemOp} {sink : Sink} (hm : Memory.wf s.mem) (hop : s.op = some c.word)
    (hspace : sink.writing = true → sink.base + sink.cap ≤ 2 ^ 32)
    (hsink : sink.writing = true → ∀ a, s.mayWrite a = false → a < sink.base ∨ sink.base + sink.cap ≤ a) :
    ∃ t, s.encodeFrame c sink = .next t ∧ Completion s t := by
  by_cases hfits : frameBytes s.operands s.mem ≤ sink.cap
  · obtain ⟨m, hframe, hsilent, hwrites⟩ := encodeFrame_of_fits c hfits
    refine ⟨_, hframe, ?_⟩
    cases hw : sink.writing with
    | false =>
      obtain rfl : m = s.mem := hsilent hw
      exact succeed_completion hm fun _ _ => rfl
    | true =>
      obtain ⟨hwf, -, hkept⟩ := hwrites hw hm (hspace hw)
      exact succeed_completion hwf fun a ha => hkept a (by have := hsink hw a ha; omega)
  · obtain ⟨k, -, -, -, hframe⟩ := encodeFrame_of_overflow c (Nat.not_le.mp hfits)
    rw [hframe, ← raiseInRows_eq_completed s c (by decide)]
    exact ⟨_, rfl, raiseInRows_completion hm hop rfl⟩

theorem unpack_completes {s : State} {c : MemOp} (hc : c = .unpack16 ∨ c = .unpack8) (hm : Memory.wf s.mem)
    (hop : s.op = some c.word) (hnone : s.operands.startError c = none) :
    ∃ t, s.unpack c = .next t ∧ Completion s t := by
  obtain ⟨-, hcfg, hbadFit⟩ := Operands.startError_eq_none.mp hnone
  have hfit := Unpack.fit_of_payload_rows_le (payload_rows_le_of_badFit hc hbadFit)
  obtain ⟨hwf, -, hkept⟩ := unpackRows_spec _ hm hcfg (Nat.le_refl s.operands.rows)
  refine ⟨_, Unpack.unpack_of_fit hfit, succeed_completion hwf fun a ha => hkept a ?_⟩
  refine (inPixels_eq_false hcfg).mp ?_
  rw [State.mayWrite_of_op hop, writeSet_of_startOk hnone] at ha
  rcases hc with rfl | rfl <;> exact ha

/-- The unit of every memory command comes to its completion (R153, R157). -/
theorem unitWork_completes {s : State} {c : MemOp} (hm : Memory.wf s.mem) (hpending : s.engine = .pending c.word)
    (hnone : s.operands.startError c = none) : ∃ t, unitWork c s = .next t ∧ Completion s t := by
  have hop := op_of_pending hpending
  have hcfg := (Operands.startError_eq_none.mp hnone).2.1
  cases c with
  | decode =>
    obtain ⟨t, hrun, hframe, hend⟩ := runTokens_spec (s := { s with engine := .decoding .start }) hm rfl
      (start_ok hnone) le_rfl
    exact ⟨t, hrun, decodeFrame_completion hop hnone hframe hend⟩
  | encode =>
    refine encodeFrame_completes hm hop (fun _ => ((Operands.badConfig_eq_false.mp hcfg).2.2 (by decide)).1) ?_
    intro _ a ha
    rw [State.mayWrite_of_op hop, writeSet_of_startOk hnone] at ha
    by_contra hin
    exact absurd (Operands.inStream_eq_true.mpr (by dsimp only at hin; omega)) (Bool.eq_false_iff.mp ha)
  | encSize => exact encodeFrame_completes hm hop (fun h => by cases h) fun h => by cases h
  | unpack16 => exact unpack_completes (.inl rfl) hm hop hnone
  | unpack8 => exact unpack_completes (.inr rfl) hm hop hnone

/-- Which command a word other than CLEAR's starts (R66, R67). -/
theorem memOp_or_reserved {v : Word} (hv : v ≠ 0#32) : (∃ c : MemOp, v = c.word) ∨ 5 < v.toNat := by
  rcases commandWord_cases v with hclear | rfl | rfl | rfl | rfl | rfl | hreserved
  · exact absurd hclear hv
  · exact .inl ⟨.decode, rfl⟩
  · exact .inl ⟨.encode, rfl⟩
  · exact .inl ⟨.encSize, rfl⟩
  · exact .inl ⟨.unpack16, rfl⟩
  · exact .inl ⟨.unpack8, rfl⟩
  · exact .inr hreserved

/-- Every pending command completes, whatever its operands (R153). -/
theorem exec_pending_completes {s : State} {v : Word} (hm : Memory.wf s.mem) (hpending : s.engine = .pending v)
    (hv : v ≠ 0#32) : ∃ t, exec (decodeCommand v) s = .next t ∧ Completion s t := by
  rcases memOp_or_reserved hv with ⟨c, rfl⟩ | hreserved
  · cases hstart : s.operands.startError c with
    | some e =>
      rw [exec_memOp_of_pending hpending, State.checked_of_error hstart]
      exact ⟨_, rfl, raiseAtStart_completion hm (startError_raisedByBlock hstart)⟩
    | none =>
      rw [exec_memOp_of_startOk hpending hstart]
      exact unitWork_completes hm hpending hstart
  · rw [decodeCommand_of_lt hreserved]
    exact ⟨_, execCmdReserved_of_pending hpending, raiseAtStart_completion hm rfl⟩

/-- A DECODE in progress inside its bounds completes (R109, R153). -/
theorem exec_decoding_completes {s : State} {d : DecodeWork} (hm : Memory.wf s.mem) (hd : s.engine = .decoding d)
    (hok : d.ok s.operands) : ∃ t, exec .decode s = .next t ∧ Completion s t := by
  obtain ⟨t, hrun, hframe, hend⟩ := runTokens_spec hm hd hok le_rfl
  have harm : exec .decode s = runTokens (s.operands.tokenFuel d) s :=
    (execDecode_of_decoding hd).trans (finishFrame_of_decoding hd)
  exact ⟨t, harm.trans hrun, decodeFrame_completion (op_of_decoding hd) hok.1 hframe hend⟩

/-- What the engine may hold while a command runs (R21). -/
theorem engine_ok_cases {s : State} (hbusy : s.engine ≠ .idle) (hok : s.engine.ok s.operands = true) :
    (∃ v, s.engine = .pending v ∧ v ≠ 0#32) ∨ ∃ d, s.engine = .decoding d ∧ d.ok s.operands := by
  cases he : s.engine with
  | idle => exact absurd he hbusy
  | pending v => exact .inl ⟨v, rfl, by simpa [he, Engine.ok] using hok⟩
  | decoding d => exact .inr ⟨d, rfl, by simpa only [he, Engine.ok, decide_eq_true_eq] using hok⟩

/-- R153, R157: the completion of a running command is always enabled. -/
theorem engineComplete_completes {s : State} (hm : Memory.wf s.mem) (hbusy : s.engine ≠ .idle)
    (hok : s.engine.ok s.operands = true) : ∃ t, s.engineComplete = .next t ∧ Completion s t := by
  rcases engine_ok_cases hbusy hok with ⟨v, hpending, hv⟩ | ⟨d, hd, hdok⟩
  · rw [State.engineComplete_of_pending hpending]
    exact exec_pending_completes hm hpending hv
  · rw [(State.engineMoves_of_decoding hd).1]
    exact exec_decoding_completes hm hd hdok

/-! ### Parts of the invariant -/

/-- R190: no command runs while `rst` is asserted. -/
theorem rst_of_busy {s : State} (hrst : s.resetOk) (hbusy : s.engine ≠ .idle) : s.rst = false := by
  by_contra hset
  exact hbusy (hrst (by simpa using hset)).1

/-- A state with `rst` released owes nothing to the reset values. -/
theorem resetOk_of_released {s : State} (h : s.rst = false) : s.resetOk := fun hset => by simp [h] at hset

theorem inv_of_completion {s t : State} (hinv : Inv s) (hbusy : s.engine ≠ .idle) (h : Completion s t) : Inv t := by
  obtain ⟨-, -, -, hrst⟩ := hinv
  obtain ⟨hidle, -, hstatus⟩ := h.ended
  refine ⟨h.wf, ?_, hstatus, resetOk_of_released (h.rst.trans (rst_of_busy hrst hbusy))⟩
  rw [hidle]
  rfl

/-- An idle, released state needs memory in canonical form and registers that go together. -/
theorem inv_of_idle {s : State} (hm : Memory.wf s.mem) (hidle : s.engine = .idle) (hstatus : s.statusOk)
    (hrst : s.rst = false) : Inv s :=
  ⟨hm, by rw [hidle]; rfl, hstatus, resetOk_of_released hrst⟩

/-- R16: while the block is idle the operands do not bear on the status registers. -/
theorem statusOk_of_idle {s t : State} (h : s.statusOk) (hidle : t.engine = .idle) (hstatus : t.status = s.status)
    (hreport : t.report = s.report) : t.statusOk := by
  obtain ⟨-, hregisters⟩ := h
  refine ⟨fun hbusy => ?_, ?_⟩
  · rw [State.busy_eq_false_iff.mpr hidle] at hbusy
    cases hbusy
  · rw [hstatus, hreport]
    exact hregisters

theorem statusOk_clear {s : State} (hidle : s.engine = .idle) (hstatus : s.status = .clear)
    (hreport : s.report = .clear) : s.statusOk := by
  simp [State.statusOk, State.busy_eq_false_iff.mpr hidle, hstatus, hreport, Status.clear, Report.clear]

/-- R151: a started command has its results cleared. -/
theorem inv_start {s : State} {v : Word} (hm : Memory.wf s.mem) (hrst : s.rst = false) (hv : v ≠ 0#32) :
    Inv (s.start v) := by
  refine ⟨hm, by simpa [Engine.ok] using hv, ?_, resetOk_of_released hrst⟩
  simp [State.statusOk, Report.clear]

theorem wf_abandonedMem {s : State} (hm : Memory.wf s.mem) : Memory.wf s.abandonedMem := by
  unfold State.abandonedMem
  split
  · exact hm
  · split
    · exact hm
    · exact Memory.wf_unspecify hm

theorem inv_assertReset {s : State} (hm : Memory.wf s.mem) : Inv s.assertReset :=
  ⟨wf_abandonedMem hm, rfl, statusOk_clear rfl rfl rfl, fun _ => ⟨rfl, rfl, rfl, rfl⟩⟩

/-- A DECODE that goes on keeps the invariant: its status registers are those of the command's start. -/
theorem inv_decoding {s t : State} {d : DecodeWork} (hinv : Inv s) (hbusy : s.engine ≠ .idle)
    (hm : Memory.wf t.mem) (hd : t.engine = .decoding d) (hok : d.ok s.operands) (hoperands : t.operands = s.operands)
    (hrst : t.rst = s.rst) (hstatus : t.status = s.status) (hreport : t.report = s.report) : Inv t := by
  obtain ⟨-, -, ⟨hrunning, hregisters⟩, hreset⟩ := hinv
  have hsbusy : s.busy = true := Bool.of_not_eq_false (mt State.busy_eq_false_iff.mp hbusy)
  refine ⟨hm, ?_, ⟨fun _ => ?_, ?_⟩, resetOk_of_released (hrst.trans (rst_of_busy hreset hbusy))⟩
  · rw [hd, hoperands]
    exact decide_eq_true hok
  · rw [hstatus, hreport, hoperands]
    exact hrunning hsbusy
  · rw [hstatus, hreport]
    exact hregisters

/-! ### Every move -/

/-- A move answers a state that meets the invariant, or is refused. -/
def KeepsInvariant (a : Answer) : Prop := (∃ t, a = .next t ∧ Inv t) ∨ ∃ r, a = .refused r

theorem keepsInvariant_next {t : State} (h : Inv t) : KeepsInvariant (.next t) := .inl ⟨t, rfl, h⟩

theorem keepsInvariant_completion {s : State} {a : Answer} (hinv : Inv s) (hbusy : s.engine ≠ .idle)
    (h : ∃ t, a = .next t ∧ Completion s t) : KeepsInvariant a := by
  obtain ⟨t, rfl, hcompletion⟩ := h
  exact keepsInvariant_next (inv_of_completion hinv hbusy hcompletion)

theorem portRead_keepsInvariant {s : State} (hinv : Inv s) (offset size : Nat) :
    KeepsInvariant (s.portRead offset size) := by
  unfold State.portRead
  split
  · exact keepsInvariant_next hinv
  · exact .inr ⟨_, rfl⟩

/-- R22: a write that is not ignored meets an idle block with `rst` released. -/
theorem portWrite_keepsInvariant {s : State} (hinv : Inv s) (offset size : Nat) (v : Word) :
    KeepsInvariant (s.portWrite offset size v) := by
  have ⟨hm, _, hstatus, _⟩ := hinv
  rcases s.portWrite_cases offset size v with ⟨-, h⟩ | ⟨-, -, h⟩ | ⟨-, hrst, hidle, -, h⟩ | ⟨-, hrst, hidle, -, h⟩ <;>
    rw [h]
  · exact .inr ⟨_, rfl⟩
  · exact keepsInvariant_next hinv
  · have hidle := State.busy_eq_false_iff.mp hidle
    by_cases hv : v = 0#32
    · subst hv
      refine (exec_clear_of_idle hidle : exec (decodeCommand 0#32) s = _) ▸ keepsInvariant_next ?_
      exact inv_of_idle hm hidle (statusOk_clear hidle rfl rfl) hrst
    · rw [exec_decodeCommand_of_idle hidle hv]
      exact keepsInvariant_next (inv_start hm hrst hv)
  · have hidle := State.busy_eq_false_iff.mp hidle
    obtain ⟨o, hwrite⟩ := s.writeReg_frame v (regAt offset)
    rw [hwrite]
    exact keepsInvariant_next (inv_of_idle hm hidle (statusOk_of_idle hstatus hidle rfl rfl) hrst)

theorem hostRead_keepsInvariant {s : State} (hinv : Inv s) (a : Word) : KeepsInvariant (s.hostRead a) := by
  unfold State.hostRead
  split
  · exact .inr ⟨_, rfl⟩
  · exact keepsInvariant_next hinv

theorem hostWrite_keepsInvariant {s : State} (hinv : Inv s) (a : Word) (b : Byte) :
    KeepsInvariant (s.hostWrite a b) := by
  unfold State.hostWrite
  split
  · exact .inr ⟨_, rfl⟩
  · obtain ⟨hm, hrest⟩ := hinv
    exact keepsInvariant_next ⟨Memory.wf_write b hm a.isLt, hrest⟩

theorem engineComplete_keepsInvariant {s : State} (hinv : Inv s) : KeepsInvariant s.engineComplete := by
  by_cases hidle : s.engine = .idle
  · rw [(State.engineMoves_of_idle hidle).1]
    exact keepsInvariant_next hinv
  · exact keepsInvariant_completion hinv hidle (engineComplete_completes hinv.1 hidle hinv.2.1)

/-- The start checks of a pending DECODE, then its working state (R108, R155). -/
theorem inv_openFrame {s : State} (hinv : Inv s) (hbusy : s.engine ≠ .idle) : Inv s.openFrame := by
  rcases s.openFrame_cases with ⟨e, he, hopen⟩ | ⟨hnone, hopen⟩ <;> rw [hopen]
  · exact inv_of_completion hinv hbusy (raiseAtStart_completion hinv.1 (startError_raisedByBlock he))
  · exact inv_decoding hinv hbusy hinv.1 rfl (start_ok hnone) rfl rfl rfl rfl

/-- One word of a DECODE in progress (R101 to R108). -/
theorem tokenStep_keepsInvariant {s : State} {d : DecodeWork} (hinv : Inv s) (hd : s.engine = .decoding d)
    (hok : d.ok s.operands) : KeepsInvariant (s.tokenStep d) := by
  have hbusy : s.engine ≠ .idle := by simp [hd]
  obtain ⟨t, ht, hframe, heffect⟩ := State.tokenStep_spec hinv.1 hok
  rcases heffect with hend | ⟨d', hd', hok', -, hstatus, hreport⟩
  · exact keepsInvariant_completion hinv hbusy
      ⟨t, ht, decodeFrame_completion (op_of_decoding hd) hok.1 hframe hend⟩
  · obtain ⟨hoperands, -, hrst, -, -, hm, -⟩ := hframe
    rw [ht]
    exact keepsInvariant_next (inv_decoding hinv hbusy hm hd' hok' hoperands hrst hstatus hreport)

theorem engineAdvance_keepsInvariant {s : State} (hinv : Inv s) : KeepsInvariant s.engineAdvance := by
  by_cases hidle : s.engine = .idle
  · rw [(State.engineMoves_of_idle hidle).2]
    exact keepsInvariant_next hinv
  · rcases engine_ok_cases hidle hinv.2.1 with ⟨v, hpending, hv⟩ | ⟨d, hd, hok⟩
    · rw [State.engineAdvance_of_pending hpending]
      split
      · exact keepsInvariant_next (inv_openFrame hinv hidle)
      · exact keepsInvariant_completion hinv hidle (exec_pending_completes hinv.1 hpending hv)
    · rw [(State.engineMoves_of_decoding hd).2]
      exact tokenStep_keepsInvariant hinv hd hok

/-- R190: the release of `rst` leaves registers that go together. -/
theorem inv_release {s : State} (hinv : Inv s) : Inv { s with rst := false } := by
  obtain ⟨hm, hok, hstatus, -⟩ := hinv
  exact ⟨hm, hok, hstatus, resetOk_of_released rfl⟩

theorem move_keepsInvariant {s : State} (hinv : Inv s) (m : Move) : KeepsInvariant (s.move m) := by
  cases m with
  | regRead offset size => exact portRead_keepsInvariant hinv offset size
  | regWrite offset size v => exact portWrite_keepsInvariant hinv offset size v
  | memRead a => exact hostRead_keepsInvariant hinv a
  | memWrite a b => exact hostWrite_keepsInvariant hinv a b
  | rstAssert => exact keepsInvariant_next (inv_assertReset hinv.1)
  | rstRelease => exact keepsInvariant_next (inv_release hinv)
  | complete => exact engineComplete_keepsInvariant hinv
  | advance => exact engineAdvance_keepsInvariant hinv

theorem step_keepsInvariant {s : State} (hinv : Inv s) : KeepsInvariant (step s) := by
  cases hagenda : s.agenda with
  | nil =>
    rw [step_of_none hagenda]
    exact engineComplete_keepsInvariant hinv
  | cons m moves =>
    rw [step_of_move hagenda]
    exact move_keepsInvariant (s := { s with agenda := moves }) hinv m

/-! ### The statements -/

/-- Settles O53: where a step answers a next state, `step_keepsInvariant` gives its invariant. -/
theorem everyStepKeepsTheInvariant : Obligations.EveryStepKeepsTheInvariant := by
  intro s t hinv hstep
  rcases step_keepsInvariant hinv with ⟨u, hnext, hu⟩ | ⟨r, hrefused⟩
  · rw [hstep] at hnext
    cases hnext
    exact hu
  · rw [hstep] at hrefused
    cases hrefused

/-- Settles O54: a step answers a next state or a refusal, and neither is a fault. -/
theorem noStepFromTheInvariantFaults : Obligations.NoStepFromTheInvariantFaults := by
  intro s hinv f hfault
  rcases step_keepsInvariant hinv with ⟨u, hnext, -⟩ | ⟨r, hrefused⟩
  · rw [hfault] at hnext
    cases hnext
  · rw [hfault] at hrefused
    cases hrefused

/-- Settles O55: the completion is always enabled, and what it leaves has ended. -/
theorem aBusyBlockCompletes : Obligations.ABusyBlockCompletes := by
  intro s hinv hbusy hagenda
  have hrunning : s.engine ≠ .idle := fun hidle => by simp [State.busy_eq_false_iff.mpr hidle] at hbusy
  obtain ⟨t, hcomplete, hcompletion⟩ := engineComplete_completes hinv.1 hrunning hinv.2.1
  obtain ⟨hidle, hdone, -⟩ := hcompletion.ended
  exact ⟨t, (step_of_none hagenda).trans hcomplete, State.busy_eq_false_iff.mpr hidle, hdone⟩

/-- Settles O49: the step is the completion, whose frame is the write set. -/
theorem completionChangesOnlyTheWriteSet : Obligations.CompletionChangesOnlyTheWriteSet := by
  intro s t a hm hagenda hstep hrunning ha hok
  obtain ⟨u, hcomplete, hcompletion⟩ := engineComplete_completes hm hrunning hok
  obtain rfl : u = t := by
    rw [step_of_none hagenda, hcomplete] at hstep
    cases hstep
    rfl
  exact hcompletion.frame a ha

/-- Settles O56: the invariant's clause about a running command fixes every register the host reads. -/
theorem resultsReadZeroWhileBusy : Obligations.ResultsReadZeroWhileBusy := by
  intro s hinv hbusy
  obtain ⟨-, -, ⟨hrunning, herr, -⟩, -⟩ := hinv
  obtain ⟨hdone, hreport, hbottomUp⟩ := hrunning hbusy
  have hnoerr : s.status.err = false := by
    by_contra hset
    simp [herr (by simpa using hset)] at hdone
  refine ⟨?status, ?_, ?_, ?_, ?_, ?_⟩
  case status =>
    by_cases hsign : 0 < s.operands.height.toInt <;>
      simp [State.readReg, State.statusWord, flagBit, hbusy, hdone, hnoerr, hbottomUp, Operands.bottomUp, hsign]
  all_goals
    simp [State.readReg, State.diagWord, flagBit, hreport, Report.clear, ErrCode.code]

/-- Settles O52: every register of the state right after reset, by evaluation. -/
theorem resetStateIsIdleAndZero : Obligations.ResetStateIsIdleAndZero := by
  refine ⟨inv_of_idle Memory.wf_nil rfl (statusOk_clear rfl rfl rfl) rfl, rfl, rfl, ?operands, rfl, rfl, ?reads⟩
  case operands =>
    intro i
    fin_cases i <;> rfl
  case reads =>
    intro r
    rcases r with _ | r
    · rfl
    · cases r <;> decide

end Sys2Proof.StepInvariant

/-! The statements of family other about the moves: the register port (R10, R22 to R24), the host's memory accesses and
the footprint (R48, R53), `rst` (R190, R191), and the engine's moves (R153). -/

namespace Sys2Proof.Moves

open Sys2Proof.Machine Sys2Proof.PendingCommand Sys2Proof.RowPlacement

/-! ### The register port -/

/-- The accesses of the port that are no aligned 32-bit access inside the window (R24). -/
theorem portAccessOk_eq_false {offset size : Nat} (h : offset % 4 ≠ 0 ∨ size ≠ 4 ∨ 0x40 ≤ offset) :
    portAccessOk offset size = false := by
  simp only [portAccessOk, Bool.and_eq_false_iff, decide_eq_false_iff_not]
  omega

theorem portAccessOk_word {q : Nat} (h : q < 16) : portAccessOk (4 * q) 4 = true := by
  simp [portAccessOk]
  omega

theorem portRead_of_ok {s : State} {offset size : Nat} (h : portAccessOk offset size = true) :
    s.portRead offset size = .next { s with hostData := s.readReg (regAt offset) } := by
  rw [State.portRead, if_pos h]

theorem portWrite_of_ignored {s : State} {offset size : Nat} (h : portAccessOk offset size = true)
    (hignored : s.rst = true ∨ s.busy = true) (v : Word) : s.portWrite offset size v = .next s := by
  rw [State.portWrite, if_pos h, if_pos (by simpa using hignored)]

theorem portWrite_of_idle {s : State} {offset size : Nat} (h : portAccessOk offset size = true)
    (hrst : s.rst = false) (hidle : s.engine = .idle) (v : Word) :
    s.portWrite offset size v =
      if regAt offset = some .cmd then exec (decodeCommand v) s else .next (s.writeReg v (regAt offset)) := by
  rw [State.portWrite, if_pos h, if_neg (by simp [hrst, State.busy_eq_false_iff.mpr hidle])]

/-- The read-only and the reserved offsets (R10, R23). -/
theorem writeReg_of_read_only (s : State) (v : Word) {q : Nat} (hq : q < 16)
    (h : q = 1 ∨ q = 2 ∨ q = 3 ∨ 10 ≤ q) :
    regAt (4 * q) ≠ some .cmd ∧ s.writeReg v (regAt (4 * q)) = s := by
  rcases h with rfl | rfl | rfl | h
  · exact ⟨by decide, rfl⟩
  · exact ⟨by decide, rfl⟩
  · exact ⟨by decide, rfl⟩
  · interval_cases q <;> exact ⟨by decide, rfl⟩

/-- Where the operand registers lie (R10, R11). -/
def operandReg : Fin 6 → Reg
  | 0 => .streamAddr
  | 1 => .streamLen
  | 2 => .pixAddr
  | 3 => .pixStride
  | 4 => .width
  | 5 => .height

theorem offset_operandReg (i : Fin 6) : (operandReg i).offset = 0x10 + 4 * i.val := by fin_cases i <;> rfl

theorem operandReg_ne_cmd (i : Fin 6) : operandReg i ≠ .cmd := by fin_cases i <;> decide

theorem readReg_operandReg (s : State) (i : Fin 6) : s.readReg (some (operandReg i)) = s.operands.x i := by
  fin_cases i <;> rfl

/-- R13: the write stores all 32 bits in one operand register. -/
theorem writeReg_operandReg (s : State) (v : Word) (i : Fin 6) :
    ∃ o, s.writeReg v (some (operandReg i)) = { s with operands := o } ∧
      ∀ j, o.x j = if j = i then v else s.operands.x j := by
  fin_cases i <;> exact ⟨_, rfl, fun j => by fin_cases j <;> rfl⟩

/-- Settles O40: the offset is that of `operandReg i`, which `writeReg_operandReg` stores. -/
theorem operandWritesStoreAllBits : Obligations.OperandWritesStoreAllBits := by
  intro s i v moves hidle hrst hagenda
  obtain ⟨o, hwrite, hx⟩ := writeReg_operandReg { s with agenda := moves } v i
  refine ⟨o, ?_, by rw [hx, if_pos rfl], fun j hj => by rw [hx, if_neg hj]⟩
  rw [← offset_operandReg] at hagenda
  have hport := portWrite_of_idle (s := { s with agenda := moves }) (portAccessOk_offset (operandReg i)) hrst hidle v
  rw [regAt_offset, if_neg (by simpa using operandReg_ne_cmd i), hwrite] at hport
  exact (step_of_move hagenda).trans hport

/-- R22, R190: the aligned writes that store nothing. -/
theorem portWrite_ignored {s : State} {q : Nat} (hq : q < 16)
    (h : s.engine ≠ .idle ∨ s.rst = true ∨ q = 1 ∨ q = 2 ∨ q = 3 ∨ 10 ≤ q) (v : Word) :
    s.portWrite (4 * q) 4 v = .next s := by
  have hok := portAccessOk_word hq
  by_cases hignored : s.rst = true ∨ s.busy = true
  · exact portWrite_of_ignored hok hignored v
  · rw [not_or, Bool.not_eq_true, Bool.not_eq_true, State.busy_eq_false_iff] at hignored
    obtain ⟨hrst, hidle⟩ := hignored
    have hreadOnly : q = 1 ∨ q = 2 ∨ q = 3 ∨ 10 ≤ q := by simpa [hrst, hidle] using h
    obtain ⟨hcmd, hwrite⟩ := writeReg_of_read_only s v hq hreadOnly
    rw [portWrite_of_idle hok hrst hidle, if_neg hcmd, hwrite]

/-- Settles O41: BUSY and `rst` stop every write at the port, and the other offsets store nothing. -/
theorem ignoredRegisterWritesChangeNothing : Obligations.IgnoredRegisterWritesChangeNothing :=
  fun s _ v moves hq hagenda hreason =>
    (step_of_move hagenda).trans (portWrite_ignored (s := { s with agenda := moves }) hq hreason v)

theorem flagBit_getLsbD (b : Bool) {n : Nat} (hn : n < 32) (i : Nat) :
    (flagBit b n).getLsbD i = (i == n && b) := by
  unfold flagBit
  cases b
  · simp
  · simp only [if_true, BitVec.getLsbD_shiftLeft, BitVec.getLsbD_one, Bool.and_true]
    grind

/-- R15: STATUS bit by bit. -/
theorem statusWord_getLsbD (s : State) (i : Nat) :
    s.statusWord.getLsbD i =
      ((i == 0 && s.busy) || (i == 1 && s.status.done) || (i == 2 && s.status.err) ||
        (i == 3 && s.status.bottomUp)) := by
  simp only [State.statusWord, BitVec.getLsbD_or, flagBit_getLsbD _ (show 0 < 32 by omega),
    flagBit_getLsbD _ (show 1 < 32 by omega), flagBit_getLsbD _ (show 2 < 32 by omega),
    flagBit_getLsbD _ (show 3 < 32 by omega)]

/-- R18: DIAG bit by bit. -/
theorem diagWord_getLsbD (s : State) (i : Nat) :
    s.diagWord.getLsbD i = ((i == 0 && s.report.alignAssumption) || (i == 1 && s.report.shortRow)) := by
  simp only [State.diagWord, BitVec.getLsbD_or, flagBit_getLsbD _ (show 0 < 32 by omega),
    flagBit_getLsbD _ (show 1 < 32 by omega)]

theorem regAt_reserved {q : Nat} (hq : q < 16) (h : 13 ≤ q) : regAt (4 * q) = none := by
  interval_cases q <;> rfl

/-- Settles O42: the value is the register at the offset, STATUS and DIAG by their bits. -/
theorem registerReadsGiveTheRegisterAndChangeNothing : Obligations.RegisterReadsGiveTheRegisterAndChangeNothing := by
  intro s q moves hq hagenda
  refine ⟨s.readReg (regAt (4 * q)), ?_, ?_, ?_, ?_, ?_, ?_, ?_, ?_, ?_, ?_⟩
  · exact (step_of_move hagenda).trans (portRead_of_ok (portAccessOk_word hq))
  · rintro rfl; rfl
  · rintro rfl; exact statusWord_getLsbD s
  · rintro rfl; rfl
  · rintro rfl; exact diagWord_getLsbD s
  · rintro i rfl
    rw [show 4 * (4 + i.val) = (operandReg i).offset by rw [offset_operandReg]; omega, regAt_offset, readReg_operandReg]
  · rintro rfl; rfl
  · rintro rfl; rfl
  · rintro rfl; rfl
  · intro hreserved
    rw [regAt_reserved hq hreserved]
    rfl

/-- Settles O43: the port tests the access first, for a read and for a write. -/
theorem unalignedOrOutsidePortAccessIsRefused : Obligations.UnalignedOrOutsidePortAccessIsRefused := by
  intro s offset size v moves haccess
  have hbad := portAccessOk_eq_false haccess
  refine ⟨fun hagenda => ?_, fun hagenda => ?_⟩ <;> rw [step_of_move hagenda, State.move]
  · rw [State.portRead, if_neg (by simp [hbad])]
  · rw [State.portWrite, if_neg (by simp [hbad])]

/-- Settles O32: offset 0 is CMD's, and an idle block takes the write. -/
theorem stepRunsTheWrittenCommand : Obligations.StepRunsTheWrittenCommand := by
  intro s v moves hidle hrst hagenda
  have hport := portWrite_of_idle (s := { s with agenda := moves }) (portAccessOk_offset .cmd) hrst hidle v
  rw [regAt_offset, if_pos rfl] at hport
  exact (step_of_move hagenda).trans hport

/-! ### The engine's moves -/

/-- Settles O33: no move and the move `complete` are the engine's completion; `advance` is for every word but
DECODE's. -/
theorem stepCompletesTheRunningCommand : Obligations.StepCompletesTheRunningCommand := by
  intro s moves
  let popped : State := { s with agenda := moves }
  refine ⟨fun v hpending => ⟨fun hagenda => ?_, fun hagenda => ?_, fun hv hagenda => ?_⟩,
    fun d hd => ⟨fun hagenda => ?_, fun hagenda => ?_⟩⟩
  · exact (step_of_none hagenda).trans (State.engineComplete_of_pending hpending)
  · exact (step_of_move hagenda).trans (State.engineComplete_of_pending (s := popped) hpending)
  · exact ((step_of_move hagenda).trans (State.engineAdvance_of_pending (s := popped) hpending)).trans (if_neg hv)
  · exact (step_of_none hagenda).trans (State.engineMoves_of_decoding hd).1
  · exact (step_of_move hagenda).trans (State.engineMoves_of_decoding (s := popped) hd).1

/-- Settles O51: both of the engine's moves answer an idle block unchanged. -/
theorem idleBlockDoesNothing : Obligations.IdleBlockDoesNothing := by
  intro s moves hidle
  obtain ⟨hcomplete, hadvance⟩ := State.engineMoves_of_idle (s := { s with agenda := moves }) hidle
  refine ⟨fun hagenda => ?_, ?_⟩
  · rw [step_of_none hagenda, (State.engineMoves_of_idle hidle).1]
  · rintro (hagenda | hagenda) <;> rw [step_of_move hagenda, State.move]
    · exact hcomplete
    · exact hadvance

/-! ### The host's memory accesses and the footprint -/

/-- Settles O44: `hostWrite` and `hostRead` by whether the byte is in the footprint. -/
theorem hostMemoryAccessKeepsOffTheFootprint : Obligations.HostMemoryAccessKeepsOffTheFootprint := by
  refine fun s a b moves hm => ⟨fun hagenda => ⟨fun hin => ?_, fun hread hwrite => ?_⟩,
    fun hagenda => ⟨fun hin => ?_, fun hout => ?_⟩⟩ <;> rw [step_of_move hagenda, State.move]
  · exact if_pos (Bool.or_eq_true_iff.mpr hin)
  · exact ⟨_, if_neg (by simpa using ⟨hread, hwrite⟩), Memory.read_write hm a.toNat b⟩
  · exact if_pos hin
  · exact if_neg (Bool.eq_false_iff.mp hout)

/-- The row pitch of an unpack, in the words of R84. -/
theorem fit_pitch {o : Operands} {c : MemOp} (hc : c = .unpack16 ∨ c = .unpack8) (hnone : o.startError c = none) :
    ((o.fit c).getD (0, false)).1 =
      if 4 * ((o.payload c + 3) / 4) * o.rows ≤ o.len then 4 * ((o.payload c + 3) / 4) else o.payload c := by
  rw [Unpack.fit_of_payload_rows_le (payload_rows_le_of_badFit hc (Operands.startError_eq_none.mp hnone).2.2)]
  rfl

/-- R48: the rows of a command whose start checks pass, by the bytes of a row. -/
theorem inPixels_iff_of_startOk {o : Operands} {c : MemOp} (hnone : o.startError c = none) {u : Nat}
    (hu : o.payload c = u) (a : Nat) :
    o.inPixels c a = true ↔ ∃ k j, k < o.rows ∧ j < u ∧ a = o.rowaddr k + j := by
  rw [inPixels_iff_rowaddr (Operands.startError_eq_none.mp hnone).2.1, hu]

/-- R84: where a byte of an unpack's first rows of the stream lies, by the bytes of a row. -/
theorem inStream_iff_of_fit {o : Operands} {c : MemOp} (hc : c = .unpack16 ∨ c = .unpack8)
    (hnone : o.startError c = none) {u : Nat} (hu : o.payload c = u) (a : Nat) :
    o.inStream (o.rows * ((o.fit c).getD (0, false)).1) a = true ↔
      o.stream ≤ a ∧
        a < o.stream + o.rows * if 4 * ((u + 3) / 4) * o.rows ≤ o.len then 4 * ((u + 3) / 4) else u := by
  rw [fit_pitch hc hnone, hu, Operands.inStream_eq_true]

/-- Settles O45: the read and the write set of each command, their rows and stream bytes by the lemmas above. -/
theorem footprintOfEveryCommand : Obligations.FootprintOfEveryCommand := by
  intro s a o inStream inRows pitch
  have row16 : ∀ c : MemOp, c.bpp = 2 → o.payload c = 2 * o.cols := fun c hc => by
    rw [Operands.payload, hc, Nat.mul_comm]
  refine ⟨?decode, ?encode, ?encSize, ?unpack16, ?unpack8, fun hidle =>
    ⟨State.mayRead_of_idle hidle a, State.mayWrite_of_idle hidle a⟩⟩ <;> intro hop hnone
  case decode =>
    rw [State.mayRead_of_op (c := .decode) hop, State.mayWrite_of_op (c := .decode) hop, readSet_of_startOk hnone,
      writeSet_of_startOk hnone]
    exact ⟨Operands.inStream_eq_true, inPixels_iff_of_startOk hnone (row16 _ rfl) a⟩
  case encode =>
    rw [State.mayRead_of_op (c := .encode) hop, State.mayWrite_of_op (c := .encode) hop, readSet_of_startOk hnone,
      writeSet_of_startOk hnone]
    exact ⟨inPixels_iff_of_startOk hnone (row16 _ rfl) a, Operands.inStream_eq_true⟩
  case encSize =>
    rw [State.mayRead_of_op (c := .encSize) hop, State.mayWrite_of_op (c := .encSize) hop, readSet_of_startOk hnone,
      writeSet_of_startOk hnone]
    exact ⟨inPixels_iff_of_startOk hnone (row16 _ rfl) a, rfl⟩
  case unpack16 =>
    rw [State.mayRead_of_op (c := .unpack16) hop, State.mayWrite_of_op (c := .unpack16) hop,
      readSet_of_startOk hnone, writeSet_of_startOk hnone]
    exact ⟨inStream_iff_of_fit (.inl rfl) hnone (row16 _ rfl) a, inPixels_iff_of_startOk hnone (row16 _ rfl) a⟩
  case unpack8 =>
    have row8 : o.payload .unpack8 = o.cols := Nat.mul_one _
    rw [State.mayRead_of_op (c := .unpack8) hop, State.mayWrite_of_op (c := .unpack8) hop,
      readSet_of_startOk hnone, writeSet_of_startOk hnone]
    exact ⟨inStream_iff_of_fit (.inr rfl) hnone row8 a, inPixels_iff_of_startOk hnone row8 a⟩

/-! ### Reset and the error codes -/

/-- R191: what the abandoned command's write set becomes. -/
theorem read_abandonedMem {s : State} (hm : Memory.wf s.mem) (a : Nat) :
    Memory.read s.abandonedMem a =
      if s.mayWrite a = true then Config.freeByte s.draws a else Memory.read s.mem a := by
  cases hop : s.op with
  | none => simp [State.abandonedMem, State.mayWrite, hop]
  | some v =>
    cases hunit : memOpOf v with
    | none => simp [State.abandonedMem, State.mayWrite, hop, hunit]
    | some c => simp [State.abandonedMem, State.mayWrite, hop, hunit, Memory.read_unspecify hm]

/-- Settles O47: the registers are those of `assertReset`, the bytes those of `read_abandonedMem`. -/
theorem resetUnspecifiesTheAbandonedWriteSetOnly : Obligations.ResetUnspecifiesTheAbandonedWriteSetOnly := by
  intro s moves hm hagenda
  let popped : State := { s with agenda := moves }
  exact ⟨popped.assertReset, step_of_move hagenda, rfl, rfl, rfl, rfl, rfl, rfl, rfl,
    read_abandonedMem (s := popped) hm⟩

/-- Settles O48: the move sets one field. -/
theorem releasingResetChangesNothingElse : Obligations.ReleasingResetChangesNothingElse :=
  fun _ _ hagenda => step_of_move hagenda

/-- The list of R170, in the order of the numbers. -/
def errCodes : List ErrCode :=
  [.noError, .truncatedInput, .badMagic, .sizeInconsistency, .unsupportedCompression, .dimensionError,
    .insufficientPixelData, .rowOverrun, .allocationFailure, .configError]

theorem errCodes_code (e : ErrCode) : errCodes[e.code.toNat]? = some e := by cases e <;> rfl

/-- Settles O46: the numbers by evaluation; a number's place in the list gives its error back. -/
theorem errorCodesAreNumberedAsListed : Obligations.ErrorCodesAreNumberedAsListed := by
  refine ⟨rfl, rfl, rfl, rfl, rfl, rfl, rfl, rfl, rfl, rfl, fun e f hcode => ?injective, fun e => ?raised⟩
  case injective =>
    have hplace := errCodes_code e
    rw [hcode, errCodes_code f] at hplace
    exact (Option.some.inj hplace).symm
  case raised => cases e <;> decide

end Sys2Proof.Moves

/-! The statements of family other, 41_nibble_rle_decoder.md: what each token does to a DECODE in progress (R103 to
R108), one word of the stream at a time (R101, R102), and the whole by its words (R153). -/

namespace Sys2Proof.TokenSteps

open Sys2Proof.Machine Sys2Proof.StartCheckErrors Sys2Proof.PendingCommand

/-! ### The token rules -/

/-- R177: outside the write set an unspecified memory is the old one. -/
theorem read_unspecify_outside {m : Memory} {c : MemOp} {o : Operands} {draw a : Nat} (hm : Memory.wf m)
    (ha : o.writeSet c a = false) : Memory.read (Memory.unspecify m c o draw) a = Memory.read m a := by
  rw [Memory.read_unspecify hm, if_neg (by simp [ha])]

theorem atPosition_of_pos {s : State} {d : DecodeWork} {pos : Position} (hd : s.engine = .decoding d)
    (hp : d.pos = pos) (rule : DecodeWork → Answer) : s.atPosition pos rule = rule d :=
  hp ▸ State.atPosition_of_decoding hd rule

theorem exec_run_of_item {s : State} {d : DecodeWork} (hd : s.engine = .decoding d) (hp : d.pos = .item)
    (r g b n : BitVec 4) :
    exec (.run r g b n) s =
      if d.xpos + n.toNat > s.operands.cols then
        .next (s.raiseInRows .decode { err := .rowOverrun, row := d.k, off := d.cur - 2 })
      else if s.operands.rowaddr d.k + 2 * (d.xpos + n.toNat) > 2 ^ 32 then .fault .beyondAddressSpace
      else .next
        { s with
          mem := Memory.writePixels s.mem (s.operands.rowaddr d.k + 2 * d.xpos) (widen (tokenWord r g b n)) n.toNat
          engine := .decoding { d with xpos := d.xpos + n.toNat } } := by
  exact (atPosition_of_pos hd hp _ : execRun r g b n s = _)

/-- R103: a run that fits. -/
theorem exec_run_of_fits {s : State} {d : DecodeWork} (hd : s.engine = .decoding d) (hp : d.pos = .item)
    {r g b n : BitVec 4} (hx : d.xpos + n.toNat ≤ s.operands.cols)
    (ha : s.operands.rowaddr d.k + 2 * (d.xpos + n.toNat) ≤ 2 ^ 32) :
    exec (.run r g b n) s = .next
      { s with
        mem := Memory.writePixels s.mem (s.operands.rowaddr d.k + 2 * d.xpos) (widen (tokenWord r g b n)) n.toNat
        engine := .decoding { d with xpos := d.xpos + n.toNat } } := by
  rw [exec_run_of_item hd hp, if_neg (Nat.not_lt.mpr hx), if_neg (Nat.not_lt.mpr ha)]

theorem exec_eor_of_item {s : State} {d : DecodeWork} (hd : s.engine = .decoding d) (hp : d.pos = .item) :
    exec .eor s =
      if (d.cur - d.c0) % 4 ≠ 0 then .next { s with engine := .decoding { d with pos := .padding } }
      else .next (s.endDecodeRow d) := by
  exact (atPosition_of_pos hd hp _ : execEor s = _)

theorem exec_pad_of_padding {s : State} {d : DecodeWork} (hd : s.engine = .decoding d) (hp : d.pos = .padding)
    (v : Half) : exec (.pad v) s = .next (s.endDecodeRow d) :=
  (atPosition_of_pos hd hp _ : execPad v s = _)

/-- R108: a row that is not the last one. -/
theorem endDecodeRow_of_lt {s : State} {d : DecodeWork} (h : d.k + 1 < s.operands.rows) :
    s.endDecodeRow d =
      { s with
        engine := .decoding
          { cur := d.cur, c0 := d.cur, k := d.k + 1, xpos := 0,
            short := d.short || decide (d.xpos < s.operands.cols), pos := .item } } := by
  rw [State.endDecodeRow]
  exact if_pos h

/-- R107, R108: the last row. -/
theorem endDecodeRow_of_le {s : State} {d : DecodeWork} (h : s.operands.rows ≤ d.k + 1) :
    s.endDecodeRow d =
      s.completed s.mem (okReport d.cur false (d.short || decide (d.xpos < s.operands.cols))) := by
  rw [State.endDecodeRow]
  exact if_neg (Nat.not_lt.mpr h)

/-- Settles O27: the overrun's free draw stays in the write set, and a run that fits writes copies of one pixel. -/
theorem runWritesItsPixelsOrOverruns : Obligations.RunWritesItsPixelsOrOverruns := by
  refine fun s d r g b n hm hd hp => ⟨fun hover => ?_, fun hx ha => ?_⟩
  · refine ⟨Memory.unspecify s.mem .decode s.operands s.draws, ?_, fun a ha => read_unspecify_outside hm ha⟩
    rw [exec_run_of_item hd hp, if_pos hover, raiseInRows_eq_completed s .decode (by decide)]
  · have hend : s.operands.rowaddr d.k + 2 * d.xpos + 2 * n.toNat ≤ 2 ^ 32 := by omega
    refine ⟨_, exec_run_of_fits hd hp hx ha, fun i hi => ?_, fun a ha => ?_⟩
    · rw [Nat.mul_add, ← Nat.add_assoc]
      exact Memory.read16_writePixels _ hm hend hi
    · exact Memory.read_writePixels_outside _ hm hend (by omega)

/-- Settles O29: EOR by whether a pad word is due, then the end of the row by whether it is the last. -/
theorem sentinelEndsTheRow : Obligations.SentinelEndsTheRow := by
  refine fun s d hd hp => ⟨fun hpad => ?_, fun hwhole hk => ?_, fun hwhole hk => ?_⟩ <;>
    rw [exec_eor_of_item hd hp]
  · rw [if_pos hpad]
  · rw [if_neg (not_not.mpr hwhole), endDecodeRow_of_lt hk]
  · rw [if_neg (not_not.mpr hwhole), endDecodeRow_of_le hk]

/-- Settles O30: PAD reads nothing of its value; the row ends. -/
theorem padWordIsDiscardedAndEndsTheRow : Obligations.PadWordIsDiscardedAndEndsTheRow := by
  refine fun s d v hd hp => ⟨fun hk => ?_, fun hk => ?_⟩ <;> rw [exec_pad_of_padding hd hp]
  · rw [endDecodeRow_of_lt hk]
  · rw [endDecodeRow_of_le hk]

theorem atPosition_refused {s : State} {pos : Position} (h : ∀ d, s.engine = .decoding d → d.pos ≠ pos)
    (rule : DecodeWork → Answer) : s.atPosition pos rule = .refused .tokenOutsideDecode := by
  cases he : s.engine with
  | idle => simp [State.atPosition, he]
  | pending v => simp [State.atPosition, he]
  | decoding d => simp [State.atPosition, he, h d he]

/-- Settles O31: each token asks for its own position. -/
theorem tokensOutsideDecodeAreRefused : Obligations.TokensOutsideDecodeAreRefused := by
  intro s i hslot hpos
  have hitem : i.slot = .item → ∀ d, s.engine = .decoding d → d.pos ≠ .item := fun hi d hd hp =>
    hpos d hd (by rw [hp, hi]; rfl)
  have hpadding : i.slot = .padding → ∀ d, s.engine = .decoding d → d.pos ≠ .padding := fun hi d hd hp =>
    hpos d hd (by rw [hp, hi]; rfl)
  cases i with
  | clear | decode | encode | encSize | unpack16 | unpack8 | cmdReserved => exact absurd rfl hslot
  | eor | zrun | run => exact atPosition_refused (hitem rfl) _
  | pad v => exact atPosition_refused (hpadding rfl) _

/-! ### One word of the stream -/

/-- A fetched word is a token, so its rule is its `exec` (R102). -/
theorem execToken_decodeAt (pos : Position) (t : Half) (s : State) :
    execToken (decodeAt pos t) s = exec (decodeAt pos t) s := by
  rcases decodeAt_cases pos t with ⟨-, hi⟩ | ⟨-, hi | ⟨r, g, b, hi⟩ | ⟨r, g, b, n, hi⟩⟩ <;> rw [hi] <;> rfl

/-- R101: the word at the cursor, where there is one. -/
theorem tokenStep_of_room {s : State} {d : DecodeWork} (hl : d.cur + 2 ≤ s.operands.len)
    (ha : s.operands.stream + d.cur + 2 ≤ 2 ^ 32) :
    s.tokenStep d =
      exec (decodeAt d.pos (Memory.read16 s.mem (s.operands.stream + d.cur)))
        { s with engine := .decoding { d with cur := d.cur + 2 } } := by
  rw [State.tokenStep, if_neg (Nat.not_lt.mpr hl), if_neg (Nat.not_lt.mpr ha), execToken_decodeAt]

/-- R101, R106: no word is left at the cursor. -/
theorem tokenStep_exhausted {s : State} {d : DecodeWork} (hl : s.operands.len < d.cur + 2) :
    s.tokenStep d = .next ({ s with draws := s.draws + 1 }.completed (Memory.unspecify s.mem .decode s.operands s.draws)
      (errReport .insufficientPixelData d.k d.cur)) := by
  rw [State.tokenStep, if_pos hl, raiseInRows_eq_completed s .decode (by decide)]

theorem decode_slot (pos : Position) (b0 b1 : Byte) :
    decode pos.slot [b0, b1] = .ok (decodeAt pos (halfOfBytes b0 b1), []) := by
  cases pos <;> rfl

/-- The move `advance` of a DECODE in progress is one word of its stream. -/
theorem step_advance {s : State} {d : DecodeWork} {moves : List Move} (hd : s.engine = .decoding d)
    (hagenda : s.agenda = .advance :: moves) : step s = { s with agenda := moves }.tokenStep d :=
  (step_of_move hagenda).trans (State.engineMoves_of_decoding (s := { s with agenda := moves }) hd).2

/-- Settles O34: the two bytes are the word at the cursor, low byte first. -/
theorem stepFetchesAndRunsOneStreamWord : Obligations.StepFetchesAndRunsOneStreamWord := by
  intro s d moves i hd hagenda hl ha hdecode
  rw [decode_slot] at hdecode
  obtain rfl : decodeAt d.pos (Memory.read16 s.mem (s.operands.stream + d.cur)) = i := by
    cases hdecode
    rfl
  exact (step_advance hd hagenda).trans (tokenStep_of_room hl ha)

/-- Settles O35: the fetch fails before anything is read, and the free draw stays in the write set. -/
theorem exhaustedStreamIsInsufficientPixelData : Obligations.ExhaustedStreamIsInsufficientPixelData :=
  fun s _ moves hm hd hagenda hl =>
    ⟨_, (step_advance hd hagenda).trans (tokenStep_exhausted (s := { s with agenda := moves }) hl),
      fun _ ha => read_unspecify_outside hm ha⟩

/-! ### The whole DECODE by its words -/

theorem runTokens_of_idle {s : State} (h : s.engine = .idle) (n : Nat) : runTokens n s = .next s := by
  cases n with
  | zero => rfl
  | succ n => rw [runTokens, h]

/-- One word, then the rest. -/
theorem runTokens_succ {s t : State} {d : DecodeWork} (hd : s.engine = .decoding d) (ht : s.tokenStep d = .next t)
    (n : Nat) : runTokens (n + 1) s = runTokens n t := by
  rw [runTokens, hd]
  dsimp only
  rw [ht]

theorem exec_decode_of_decoding {s : State} {d : DecodeWork} (hd : s.engine = .decoding d) :
    exec .decode s = runTokens (s.operands.tokenFuel d) s :=
  (execDecode_of_decoding hd).trans (finishFrame_of_decoding hd)

/-- After a word that does not end the command the rest has exactly the fuel it needs (R109). -/
theorem exec_decode_of_tokenStep {s t : State} {d d' : DecodeWork} (hd : s.engine = .decoding d)
    (ht : s.tokenStep d = .next t) (hd' : t.engine = .decoding d') : exec .decode s = exec .decode t := by
  rcases State.tokenStep_next ht with hidle | ⟨hl, d'', hd'', hcur, hoperands⟩
  · rw [hidle] at hd'
    cases hd'
  · have hfuel : s.operands.tokenFuel d = t.operands.tokenFuel d'' + 1 := by
      simp only [Operands.tokenFuel, hoperands, hcur]
      omega
    rw [exec_decode_of_decoding hd, exec_decode_of_decoding hd'', hfuel, runTokens_succ hd ht]

/-- A word that ends the command ends the whole. -/
theorem exec_decode_of_last_tokenStep {s t : State} {d : DecodeWork} (hd : s.engine = .decoding d)
    (ht : s.tokenStep d = .next t) (hidle : t.engine = .idle) : exec .decode s = .next t := by
  rw [exec_decode_of_decoding hd, Operands.tokenFuel, runTokens_succ hd ht, runTokens_of_idle hidle]

theorem exec_decode_of_pending {s : State} (hpending : s.engine = .pending 1#32) :
    exec .decode s = s.openFrame.finishFrame := execDecode_of_pending hpending

theorem step_advance_pending {s : State} {moves : List Move} (hpending : s.engine = .pending 1#32)
    (hagenda : s.agenda = .advance :: moves) : step s = .next { s with agenda := moves }.openFrame :=
  (step_of_move hagenda).trans (State.engineAdvance_of_pending (s := { s with agenda := moves }) hpending)

/-- Settles O36: the first move opens the frame, and a word's step is the first of the run of words. -/
theorem oneMoveThenTheRestIsTheWholeDecode : Obligations.OneMoveThenTheRestIsTheWholeDecode := by
  refine ⟨fun s moves hpending hagenda => ?first, fun s t d moves hd hagenda hstep => ?word⟩
  case first =>
    have hstep := step_advance_pending hpending hagenda
    have hwhole := exec_decode_of_pending (s := { s with agenda := moves }) hpending
    rcases State.openFrame_cases { s with agenda := moves } with ⟨e, he, hopen⟩ | ⟨hnone, hopen⟩ <;>
      rw [hopen] at hstep hwhole
    · refine ⟨fun e' he' => ?_, fun hnone => absurd (hnone.symm.trans he) (by simp)⟩
      obtain rfl : e = e' := Option.some.inj (he.symm.trans he')
      rw [finishFrame_of_idle (State.raiseAtStart_engine _ e)] at hwhole
      rw [raiseAtStart_eq_completed] at hstep hwhole
      exact ⟨hstep, hwhole⟩
    · refine ⟨fun e' he' => absurd (hnone.symm.trans he') (by simp), fun _ => ⟨_, hstep, rfl, ?_⟩⟩
      exact (execDecode_of_decoding rfl).trans hwhole.symm
  case word =>
    have ht := (step_advance hd hagenda).symm.trans hstep
    refine ⟨fun hbusy => ?_, fun hidle =>
      exec_decode_of_last_tokenStep (s := { s with agenda := moves }) hd ht (State.busy_eq_false_iff.mp hidle)⟩
    rcases State.tokenStep_next ht with hidle | ⟨-, d', hd', -, -⟩
    · simp [State.busy_eq_false_iff.mpr hidle] at hbusy
    · exact (exec_decode_of_tokenStep (s := { s with agenda := moves }) hd ht hd').symm

end Sys2Proof.TokenSteps

/-! The statement of family other, 10_state.md: no command writes an operand register (R11), from any state at all. -/

namespace Sys2Proof.OperandFrame

open Sys2Proof.Machine Sys2Proof.CommandDispatch Sys2Proof.StartCheckErrors Sys2Proof.PendingCommand
  Sys2Proof.StepInvariant

/-- Where the answer is a next state, its operand registers are those of `s`. -/
def KeepsOperands (s : State) (a : Answer) : Prop := ∀ t, a = .next t → t.operands = s.operands

theorem keepsOperands_next {s t : State} (h : t.operands = s.operands) : KeepsOperands s (.next t) := by
  intro u hu
  cases hu
  exact h

theorem keepsOperands_fault (s : State) (f : Fault) : KeepsOperands s (.fault f) := fun _ h => by cases h

theorem keepsOperands_refused (s : State) (r : Refusal) : KeepsOperands s (.refused r) := fun _ h => by cases h

theorem endDecodeRow_operands (s : State) (d : DecodeWork) : (s.endDecodeRow d).operands = s.operands := by
  rcases s.endDecodeRow_cases d with ⟨-, h⟩ | ⟨-, h⟩ <;> rw [h]
  rfl

/-- R103 to R106: a token reads the operands only. -/
theorem execToken_keepsOperands (i : Instr) (s : State) : KeepsOperands s (execToken i s) := by
  intro t ht
  cases i with
  | clear | decode | encode | encSize | unpack16 | unpack8 | cmdReserved => cases ht
  | eor =>
    obtain ⟨d, -, -, ⟨-, rfl⟩ | ⟨-, rfl⟩⟩ := execEor_next ht
    · rfl
    · exact endDecodeRow_operands s d
  | zrun r g b =>
    obtain ⟨-, -, -, rfl⟩ := execZrun_next (r := r) (g := g) (b := b) ht
    rfl
  | run => obtain ⟨d, -, -, ⟨-, rfl⟩ | ⟨-, -, rfl⟩⟩ := execRun_next ht <;> rfl
  | pad v =>
    obtain ⟨d, -, -, rfl⟩ := execPad_next (v := v) ht
    exact endDecodeRow_operands s d

theorem tokenStep_keepsOperands (s : State) (d : DecodeWork) : KeepsOperands s (s.tokenStep d) := by
  unfold State.tokenStep
  split
  · exact keepsOperands_next rfl
  · split
    · exact keepsOperands_fault s _
    · exact execToken_keepsOperands _ { s with engine := .decoding { d with cur := d.cur + 2 } }

theorem runTokens_keepsOperands (n : Nat) (s : State) : KeepsOperands s (runTokens n s) := by
  induction n generalizing s with
  | zero => exact keepsOperands_next rfl
  | succ n ih =>
    rw [runTokens]
    split
    · exact keepsOperands_next rfl
    · exact keepsOperands_next rfl
    · split
      case h_1 s1 hword =>
        intro t ht
        exact (ih s1 t ht).trans (tokenStep_keepsOperands s _ s1 hword)
      · exact keepsOperands_fault s _
      · exact keepsOperands_refused s _

theorem finishFrame_keepsOperands (s : State) : KeepsOperands s s.finishFrame := by
  unfold State.finishFrame
  split
  · exact keepsOperands_next rfl
  · exact keepsOperands_next rfl
  · exact runTokens_keepsOperands _ s

theorem encodeFrame_keepsOperands (s : State) (c : MemOp) (sink : Sink) : KeepsOperands s (s.encodeFrame c sink) := by
  unfold State.encodeFrame
  split <;> exact keepsOperands_next rfl

theorem unpack_keepsOperands (s : State) (c : MemOp) : KeepsOperands s (s.unpack c) := by
  unfold State.unpack
  split <;> exact keepsOperands_next rfl

theorem unitWork_keepsOperands (c : MemOp) (s : State) : KeepsOperands s (unitWork c s) := by
  cases c with
  | decode => exact finishFrame_keepsOperands { s with engine := .decoding .start }
  | encode | encSize => exact encodeFrame_keepsOperands s _ _
  | unpack16 | unpack8 => exact unpack_keepsOperands s _

theorem exec_pending_keepsOperands {s : State} {v : Word} (hpending : s.engine = .pending v) :
    KeepsOperands s (exec (decodeCommand v) s) := by
  by_cases hv : v = 0#32
  · subst hv
    have hignored : exec (decodeCommand 0#32) s = .next s := exec_clear_of_not_idle (by simp [hpending])
    exact hignored ▸ keepsOperands_next rfl
  · rcases memOp_or_reserved hv with ⟨c, rfl⟩ | hreserved
    · rw [exec_memOp_of_pending hpending, State.checked]
      split
      · exact keepsOperands_next rfl
      · exact unitWork_keepsOperands c s
    · have hcompletes := execCmdReserved_of_pending hpending
      rw [decodeCommand_of_lt hreserved, exec, hcompletes]
      exact keepsOperands_next rfl

theorem engineComplete_keepsOperands (s : State) : KeepsOperands s s.engineComplete := by
  cases he : s.engine with
  | idle =>
    rw [(State.engineMoves_of_idle he).1]
    exact keepsOperands_next rfl
  | pending v =>
    rw [State.engineComplete_of_pending he]
    exact exec_pending_keepsOperands he
  | decoding d =>
    rw [(State.engineMoves_of_decoding he).1, exec, execDecode_of_decoding he]
    exact finishFrame_keepsOperands s

theorem engineAdvance_keepsOperands (s : State) : KeepsOperands s s.engineAdvance := by
  cases he : s.engine with
  | idle =>
    rw [(State.engineMoves_of_idle he).2]
    exact keepsOperands_next rfl
  | pending v =>
    rw [State.engineAdvance_of_pending he]
    split
    · rcases s.openFrame_cases with ⟨e, -, hopen⟩ | ⟨-, hopen⟩ <;> rw [hopen] <;> exact keepsOperands_next rfl
    · exact exec_pending_keepsOperands he
  | decoding d =>
    rw [(State.engineMoves_of_decoding he).2]
    exact tokenStep_keepsOperands s d

theorem keepsOperands_ite {s : State} {c : Prop} [Decidable c] {a b : Answer} (ha : KeepsOperands s a)
    (hb : KeepsOperands s b) : KeepsOperands s (if c then a else b) := by
  split
  · exact ha
  · exact hb

/-- Every move but a register write and the assertion of `rst`. -/
theorem move_keepsOperands (s : State) {m : Move} (hwrite : ∀ offset size v, m ≠ .regWrite offset size v)
    (hreset : m ≠ .rstAssert) : KeepsOperands s (s.move m) := by
  cases m with
  | regRead => exact keepsOperands_ite (keepsOperands_next rfl) (keepsOperands_refused s _)
  | regWrite offset size v => exact absurd rfl (hwrite offset size v)
  | memRead => exact keepsOperands_ite (keepsOperands_refused s _) (keepsOperands_next rfl)
  | memWrite => exact keepsOperands_ite (keepsOperands_refused s _) (keepsOperands_next rfl)
  | rstAssert => exact absurd rfl hreset
  | rstRelease => exact keepsOperands_next rfl
  | complete => exact engineComplete_keepsOperands s
  | advance => exact engineAdvance_keepsOperands s

/-- Settles O50: the step is the completion, or the first move of the agenda. -/
theorem onlyHostWritesAndResetChangeOperands : Obligations.OnlyHostWritesAndResetChangeOperands := by
  intro s t hstep hwrite hreset
  cases hagenda : s.agenda with
  | nil => exact engineComplete_keepsOperands s t ((step_of_none hagenda).symm.trans hstep)
  | cons m moves =>
    rw [hagenda, List.head?_cons] at hreset
    refine move_keepsOperands { s with agenda := moves } (m := m) (fun offset size v hm => ?_)
      (fun hm => hreset (congrArg some hm)) t ((step_of_move hagenda).symm.trans hstep)
    exact hwrite offset size v (by rw [hagenda, List.head?_cons, hm])

end Sys2Proof.OperandFrame

/-! The statements of family other, 42_nibble_rle_encoder.md: the runs of a row (R124, R128), its tokens (R123), and how
long its words are (R127, R69). -/

namespace Sys2Proof.RowRuns

open Sys2Proof.Machine Sys2Proof.Unpack Sys2Proof.PixelQuantization Sys2Proof.RoundTrip

/-! ### The runs of a row -/

/-- The pixels a run stands for (R128). -/
def runPixels (r : Half × Nat) : List Half := List.replicate r.2 (r.1 &&& Config.qmask)

/-- R124: two runs side by side, the first of which could not take the pixel the second begins with. -/
def RunEnds (p q : Half × Nat) : Prop := p.2 = 15 ∨ meq p.1 q.1 = false

theorem rowRuns_counts (pixels : List Half) : ∀ r ∈ rowRuns pixels, 1 ≤ r.2 ∧ r.2 ≤ 15 := by
  cases pixels with
  | nil => simp [rowRuns]
  | cons p rest => exact growRuns_counts le_rfl (by omega) rest

/-- The runs spell the `n` pixels taken so far and the pixels still to come. -/
theorem growRuns_pixels (first : Half) (n : Nat) (rest : List Half) :
    (growRuns first n rest).flatMap runPixels =
      List.replicate n (first &&& Config.qmask) ++ rest.map (· &&& Config.qmask) := by
  induction rest generalizing first n with
  | nil => simp [growRuns, runPixels]
  | cons p rest ih =>
    rw [growRuns]
    split
    · rename_i hjoins
      have hmasked : p &&& Config.qmask = first &&& Config.qmask := meq_iff_and_qmask_eq.mp hjoins.2
      rw [ih, List.replicate_succ', List.map_cons, hmasked, List.append_assoc, List.singleton_append]
    · rw [List.flatMap_cons, ih]
      rfl

theorem rowRuns_pixels (pixels : List Half) :
    (rowRuns pixels).flatMap runPixels = pixels.map (· &&& Config.qmask) := by
  cases pixels with
  | nil => rfl
  | cons p rest => exact growRuns_pixels p 1 rest

theorem growRuns_head (first : Half) (n : Nat) (rest : List Half) :
    ∀ r ∈ (growRuns first n rest).head?, r.1 = first := by
  induction rest generalizing n with
  | nil => simp [growRuns]
  | cons p rest ih =>
    rw [growRuns]
    split
    · exact ih (n + 1)
    · simp

theorem growRuns_chain {first : Half} {n : Nat} (hn : n ≤ 15) (rest : List Half) :
    (growRuns first n rest).IsChain RunEnds := by
  induction rest generalizing first n with
  | nil => exact .singleton _
  | cons p rest ih =>
    rw [growRuns]
    split
    · rename_i hjoins
      have hlt : n < 15 := hjoins.1
      exact ih (by omega)
    · rename_i hends
      refine (ih (by omega)).cons fun q hq => ?_
      rw [RunEnds, growRuns_head p 1 rest q hq]
      by_cases hfull : n = 15
      · exact .inl hfull
      · refine .inr (Bool.eq_false_iff.mpr fun hsame => hends ⟨?_, ?_⟩)
        · exact Nat.lt_of_le_of_ne hn hfull
        · exact meq_iff_narrow_eq.mpr (meq_iff_narrow_eq.mp hsame).symm

theorem rowRuns_chain (pixels : List Half) : (rowRuns pixels).IsChain RunEnds := by
  cases pixels with
  | nil => exact .nil
  | cons p rest => exact growRuns_chain (by omega) rest

/-- Settles O18: the three inductions over the pixels of a row above. -/
theorem runsPartitionTheRow : Obligations.RunsPartitionTheRow := by
  refine fun pixels => ⟨rowRuns_counts pixels, rowRuns_pixels pixels, fun i p q hp hq => ?_⟩
  obtain ⟨-, rfl⟩ := List.getElem?_eq_some_iff.mp hp
  obtain ⟨hi, rfl⟩ := List.getElem?_eq_some_iff.mp hq
  exact List.isChain_iff_getElem.mp (rowRuns_chain pixels) i hi

/-! ### The tokens of a row -/

/-- R60, R123: the low nibble of a run's token is its count. -/
theorem runToken_count (p : Half) {n : Nat} (hn : n ≤ 15) : runToken p n &&& 0x000F#16 = BitVec.ofNat 16 n := by
  refine BitVec.eq_of_getLsbD_eq fun i _ => ?_
  have hcount : 4 ≤ i → (BitVec.ofNat 16 n).getLsbD i = false := count_getLsbD_of_four_le hn
  have hmask : (0x000F#16).getLsbD i = decide (0 ≤ i ∧ i < 0 + 4) := nibbleMask_getLsbD (k := 0) (by omega) i
  rw [BitVec.getLsbD_and, runToken, BitVec.getLsbD_or, narrow_getLsbD, hmask]
  grind

/-- R63: the pixels DECODE makes of a run's token are those of the run. -/
theorem itemPixels_runToken {r : Half × Nat} (hr : r.2 ≤ 15) : itemPixels (runToken r.1 r.2) = runPixels r := by
  rw [itemPixels, runToken_count r.1 hr, widen_runToken r.1 hr, BitVec.toNat_ofNat, Nat.mod_eq_of_lt (by omega)]
  rfl

theorem rowTokens_pixels (pixels : List Half) :
    (rowTokens pixels).flatMap itemPixels = pixels.map (· &&& Config.qmask) :=
  calc (rowTokens pixels).flatMap itemPixels
    _ = (rowRuns pixels).flatMap fun r => itemPixels (runToken r.1 r.2) := List.flatMap_map ..
    _ = (rowRuns pixels).flatMap runPixels :=
      List.flatMap_congr fun r hr => itemPixels_runToken (rowRuns_counts pixels r hr).2
    _ = pixels.map (· &&& Config.qmask) := rowRuns_pixels pixels

/-- A token's count is what the mask leaves of it. -/
theorem count_eq_zero_iff {t : Half} : t.extractLsb' 0 4 = 0#4 ↔ t &&& 0x000F#16 = 0#16 := by
  constructor
  · intro hcount
    rw [← tokenWord_fields t, hcount]
    refine BitVec.eq_of_getLsbD_eq fun i _ => ?_
    have hmask : (0x000F#16).getLsbD i = decide (0 ≤ i ∧ i < 0 + 4) := nibbleMask_getLsbD (k := 0) (by omega) i
    rw [BitVec.getLsbD_and, tokenWord_getLsbD, hmask]
    grind
  · intro hmask
    rw [← DecodeTokens.count_of_masked, hmask]
    rfl

/-- R61: a token with a count is a RUN of its fields. -/
theorem decodeItem_of_count_ne_zero {t : Half} (h : t.extractLsb' 0 4 ≠ 0#4) :
    decodeItem t = .run (t.extractLsb' 12 4) (t.extractLsb' 8 4) (t.extractLsb' 4 4) (t.extractLsb' 0 4) := by
  have hrun := decodeItem_run (r := t.extractLsb' 12 4) (g := t.extractLsb' 8 4) (b := t.extractLsb' 4 4)
    (run_wellFormed.mpr h)
  rwa [tokenWord_fields] at hrun

theorem rowTokens_count_ne_zero {pixels : List Half} {t : Half} (ht : t ∈ rowTokens pixels) :
    t.extractLsb' 0 4 ≠ 0#4 := by
  obtain ⟨r, hr, rfl⟩ := List.mem_map.mp ht
  obtain ⟨hpos, hle⟩ := rowRuns_counts pixels r hr
  rw [Ne, count_eq_zero_iff, runToken_count r.1 hle, ← BitVec.toNat_inj, BitVec.toNat_ofNat,
    Nat.mod_eq_of_lt (by omega)]
  exact Nat.one_le_iff_ne_zero.mp hpos

/-- Settles O19: a run's token has the run's pixels and a count that is not 0. -/
theorem rowTokensDecodeToTheMaskedRow : Obligations.RowTokensDecodeToTheMaskedRow :=
  fun pixels => ⟨rowTokens_pixels pixels, fun _ ht =>
    ⟨_, _, _, _, rowTokens_count_ne_zero ht, decodeItem_of_count_ne_zero (rowTokens_count_ne_zero ht)⟩⟩

theorem meq_and_qmask (p q : Half) : meq (p &&& Config.qmask) (q &&& Config.qmask) = meq p q := by
  rw [Bool.eq_iff_iff, meq_iff_narrow_eq, meq_iff_narrow_eq, narrow_and_qmask, narrow_and_qmask]

/-- The runs of the masked row are the masked runs. -/
theorem growRuns_masked (first : Half) (n : Nat) (rest : List Half) :
    growRuns (first &&& Config.qmask) n (rest.map (· &&& Config.qmask)) =
      (growRuns first n rest).map fun r => (r.1 &&& Config.qmask, r.2) := by
  induction rest generalizing first n with
  | nil => rfl
  | cons p rest ih =>
    rw [List.map_cons, growRuns, growRuns, meq_and_qmask]
    split
    · exact ih first (n + 1)
    · rw [List.map_cons, ih]

theorem rowTokens_masked (pixels : List Half) : rowTokens (pixels.map (· &&& Config.qmask)) = rowTokens pixels := by
  cases pixels with
  | nil => rfl
  | cons p rest =>
    simp only [rowTokens, List.map_cons, rowRuns, growRuns_masked, List.map_map]
    refine List.map_congr_left fun r _ => ?_
    rw [Function.comp_apply, runToken, narrow_and_qmask, runToken]

/-- Settles O20: both rows have the tokens of the one masked row. -/
theorem encoderSeesPixelsUnderTheMaskOnly : Obligations.EncoderSeesPixelsUnderTheMaskOnly := by
  intro p q hmasked
  calc rowTokens p
    _ = rowTokens (p.map (· &&& Config.qmask)) := (rowTokens_masked p).symm
    _ = rowTokens (q.map (· &&& Config.qmask)) := congrArg rowTokens hmasked
    _ = rowTokens q := rowTokens_masked q

/-! ### The length of a row's words -/

/-- R69, R142: the words of a row are a whole number of four-byte units. -/
theorem rowWords_bytes (pixels : List Half) :
    2 * (rowWords pixels).length = roundup4 (2 * ((rowRuns pixels).length + 1)) := by
  simp only [rowWords, List.length_append, rowTokens_length, List.length_singleton, roundup4, ceilDiv]
  split <;> simp <;> omega

/-- Runs of 1 to 15 pixels: at least one pixel and at most fifteen for each. -/
theorem runs_length_bounds {runs : List (Half × Nat)} (h : ∀ r ∈ runs, 1 ≤ r.2 ∧ r.2 ≤ 15) :
    runs.length ≤ (runs.flatMap runPixels).length ∧ (runs.flatMap runPixels).length ≤ 15 * runs.length := by
  induction runs with
  | nil => simp
  | cons r runs ih =>
    obtain ⟨hr, hruns⟩ := List.forall_mem_cons.mp h
    have := ih hruns
    simp only [List.flatMap_cons, List.length_append, List.length_cons, runPixels, List.length_replicate] at this ⊢
    omega

theorem rowRuns_length_bounds (pixels : List Half) :
    (rowRuns pixels).length ≤ pixels.length ∧ pixels.length ≤ 15 * (rowRuns pixels).length := by
  have h := runs_length_bounds (rowRuns_counts pixels)
  rwa [rowRuns_pixels, List.length_map] at h

/-- Settles O21: the words by `rowWords_bytes`, the runs by the pixels they spell. -/
theorem encodedRowSizeBounds : Obligations.EncodedRowSizeBounds := by
  intro pixels
  obtain ⟨hle, hge⟩ := rowRuns_length_bounds pixels
  exact ⟨rowWords_bytes pixels, by rw [ceilDiv]; omega, hle⟩

end Sys2Proof.RowRuns

/-! The statements of family other, 42_nibble_rle_encoder.md: the frame that ENCODE writes and ENC_SIZE measures
(R125 to R127, R143, R175, R177). -/

namespace Sys2Proof.EncodeFrame

open Sys2Proof.Machine Sys2Proof.PendingCommand Sys2Proof.RowPlacement Sys2Proof.EncodePass
  Sys2Proof.TokenSteps Sys2Proof.RowRuns

/-- Where ENCODE writes (R125). -/
def streamSink (o : Operands) : Sink := { base := o.stream, cap := o.len, writing := true }

/-- What ENC_SIZE has instead (R126). -/
def sizeSink (o : Operands) : Sink := { base := o.stream, cap := Config.encSizeCap, writing := false }

theorem exec_encode_of_startOk {s : State} (hpending : s.engine = .pending 2#32)
    (hnone : s.operands.startError .encode = none) :
    exec .encode s = s.encodeFrame .encode (streamSink s.operands) :=
  exec_memOp_of_startOk (c := .encode) hpending hnone

theorem exec_encSize_of_startOk {s : State} (hpending : s.engine = .pending 3#32)
    (hnone : s.operands.startError .encSize = none) :
    exec .encSize s = s.encodeFrame .encSize (sizeSink s.operands) :=
  exec_memOp_of_startOk (c := .encSize) hpending hnone

/-- R172: the stream region of a command that passes its start checks. -/
theorem stream_in_space {o : Operands} {c : MemOp} (hc : c ≠ .encSize) (hnone : o.startError c = none) :
    o.stream + o.len ≤ 2 ^ 32 :=
  ((Operands.badConfig_eq_false.mp (Operands.startError_eq_none.mp hnone).2.1).2.2 hc).1

/-- Everything a successful ENCODE leaves, memory in canonical form with it. -/
theorem exec_encode_of_fits {s : State} (hm : Memory.wf s.mem) (hpending : s.engine = .pending 2#32)
    (hnone : s.operands.startError .encode = none) (hfits : frameBytes s.operands s.mem ≤ s.operands.len) :
    ∃ m, exec .encode s = .next (s.completed m (okReport (frameBytes s.operands s.mem) false false)) ∧
      Memory.wf m ∧ Memory.holds m s.operands.stream (rowsWords s.operands s.mem s.operands.rows) ∧
      ∀ a, (a < s.operands.stream ∨ s.operands.stream + frameBytes s.operands s.mem ≤ a) →
        Memory.read m a = Memory.read s.mem a := by
  obtain ⟨m, hframe, -, hwrites⟩ := encodeFrame_of_fits (sink := streamSink s.operands) .encode hfits
  exact ⟨m, (exec_encode_of_startOk hpending hnone).trans hframe,
    hwrites rfl hm (stream_in_space (c := .encode) (by decide) hnone)⟩

/-- Settles O23: the frame fits its sink. -/
theorem encodeWritesTheStreamOfTheFrame : Obligations.EncodeWritesTheStreamOfTheFrame := by
  intro s hm hpending hnone hfits
  obtain ⟨m, hexec, -, hwords, hkept⟩ := exec_encode_of_fits hm hpending hnone hfits
  exact ⟨m, hexec, hwords, hkept⟩

/-- Settles O24: the frame passes its sink, and the free draw stays in the stream region. -/
theorem encodeWithoutRoomIsAllocationFailure : Obligations.EncodeWithoutRoomIsAllocationFailure := by
  intro s hm hpending hnone hover
  obtain ⟨k, hk, hbelow, habove, hframe⟩ := encodeFrame_of_overflow (sink := streamSink s.operands) .encode hover
  refine ⟨k, _, hk, hbelow, habove, (exec_encode_of_startOk hpending hnone).trans hframe, fun a ha => ?_⟩
  refine read_unspecify_outside hm ?_
  rw [writeSet_of_startOk hnone]
  refine Bool.eq_false_iff.mpr fun hin => ?_
  have := Operands.inStream_eq_true.mp hin
  omega

/-- R177: ENC_SIZE has an empty write set. -/
theorem unspecify_encSize (m : Memory) (o : Operands) (draw : Nat) : Memory.unspecify m .encSize o draw = m := by
  unfold Memory.unspecify
  split <;> rfl

/-- Settles O25: a pass that does not write, by whether its sink holds the frame. -/
theorem encSizeReportsTheLengthOnly : Obligations.EncSizeReportsTheLengthOnly := by
  refine fun s hpending hnone => ⟨fun hfits => ?_, fun hover => ?_⟩ <;>
    rw [exec_encSize_of_startOk hpending hnone]
  · obtain ⟨m, hframe, hsilent, -⟩ := encodeFrame_of_fits (sink := sizeSink s.operands) .encSize hfits
    rw [hframe, hsilent rfl]
  · obtain ⟨k, hk, hbelow, habove, hframe⟩ := encodeFrame_of_overflow (sink := sizeSink s.operands) .encSize hover
    have hboundary : 2 * ((sizeSink s.operands).cap / 2) = 0xFFFFFFFE := by
      norm_num [sizeSink, Config.encSizeCap]
    rw [unspecify_encSize, hboundary] at hframe
    exact ⟨k, hk, hbelow, habove, hframe⟩

/-- R127: the words of a row are whole four-byte units, at most those of the worst case. -/
theorem rowWords_bytes_bound (pixels : List Half) :
    2 * (rowWords pixels).length ≤ roundup4 (2 * pixels.length + 2) ∧ 2 * (rowWords pixels).length % 4 = 0 := by
  have hruns := (rowRuns_length_bounds pixels).1
  rw [rowWords_bytes]
  simp only [roundup4, ceilDiv]
  omega

theorem rowsWords_bytes_bound (o : Operands) (m : Memory) (n : Nat) :
    2 * (rowsWords o m n).length ≤ n * roundup4 (2 * o.cols + 2) ∧ 2 * (rowsWords o m n).length % 4 = 0 := by
  induction n with
  | zero => simp
  | succ n ih =>
    have hrow := rowWords_bytes_bound (rowPixels m (o.rowaddr n) o.cols)
    rw [rowPixels_length] at hrow
    rw [rowsWords_succ, List.length_append, Nat.add_one_mul n]
    omega

/-- Settles O26: the frame is inside the worst case, so it fits. -/
theorem encodeWithWorstCaseRoomSucceeds : Obligations.EncodeWithWorstCaseRoomSucceeds := by
  intro s hpending hnone hroom
  obtain ⟨hbound, hunits⟩ := rowsWords_bytes_bound s.operands s.mem s.operands.rows
  obtain ⟨m, hframe, -⟩ :=
    encodeFrame_of_fits (sink := streamSink s.operands) .encode (hbound.trans hroom)
  refine ⟨_, (exec_encode_of_startOk hpending hnone).trans hframe, rfl, ?_⟩
  have hused : (BitVec.ofNat 32 (frameBytes s.operands s.mem)).toNat % 4 = 0 := by
    rw [BitVec.toNat_ofNat, Nat.mod_mod_of_dvd _ (by decide)]
    exact hunits
  exact hused

end Sys2Proof.EncodeFrame

/-! The statements of family other, 41_nibble_rle_decoder.md: every DECODE ends inside its rows (R109, R111), and a
DECODE of well-formed rows writes exactly their pixels (R108, R69). -/

namespace Sys2Proof.DecodeFrame

open Sys2Proof.Machine Sys2Proof.StartCheckErrors Sys2Proof.PendingCommand Sys2Proof.RowPlacement
  Sys2Proof.StepInvariant Sys2Proof.TokenSteps Sys2Proof.RowRuns Sys2Proof.EncodeFrame

/-! ### Every pending DECODE -/

theorem exec_decode_of_startError {s : State} {e : ErrCode} (hpending : s.engine = .pending 1#32)
    (he : s.operands.startError .decode = some e) : exec .decode s = .next (s.raiseAtStart e) :=
  (exec_memOp_of_pending (c := .decode) hpending).trans (State.checked_of_error he _)

theorem exec_decode_of_startOk {s : State} (hpending : s.engine = .pending 1#32)
    (hnone : s.operands.startError .decode = none) :
    exec .decode s = exec .decode { s with engine := .decoding .start } :=
  (exec_memOp_of_startOk (c := .decode) hpending hnone).trans
    (execDecode_of_decoding (s := { s with engine := .decoding .start }) rfl).symm

/-- R46: a row of 16-bit pixels. -/
theorem payload_decode (o : Operands) : o.payload .decode = 2 * o.cols := Nat.mul_comm ..

/-- Settles O39: a failed start check ends at once, and the words of an open frame end it inside its rows. -/
theorem everyDecodeCompletesInsideItsRows : Obligations.EveryDecodeCompletesInsideItsRows := by
  intro s hm hpending
  cases hstart : s.operands.startError .decode with
  | some e =>
    exact ⟨_, exec_decode_of_startError hpending hstart, rfl, rfl, rfl, rfl, rfl, rfl, rfl, fun _ _ => rfl⟩
  | none =>
    obtain ⟨t, hrun, ⟨hoperands, hbottomUp, hrst, hagenda, hdata, -, hkept⟩, hidle, hdone, -⟩ :=
      runTokens_spec (s := { s with engine := .decoding .start }) hm rfl (start_ok hstart) le_rfl
    refine ⟨t, ?_, hidle, hdone, hoperands, hbottomUp, hrst, hagenda, hdata, fun a ha => hkept a ?_⟩
    · exact (exec_decode_of_startOk hpending hstart).trans ((exec_decode_of_decoding rfl).trans hrun)
    · refine (inPixels_eq_false (Operands.startError_eq_none.mp hstart).2.1).mpr ?_
      rw [payload_decode]
      exact ha

/-! ### Words in memory -/

theorem holds_cons {m : Memory} {a : Nat} {v : Half} {words : List Half} :
    Memory.holds m a (v :: words) ↔ Memory.read16 m a = v ∧ Memory.holds m (a + 2) words := by
  constructor
  · refine fun h => ⟨h 0 v rfl, fun i w hw => ?_⟩
    have hnext := h (i + 1) w hw
    rwa [show a + 2 * (i + 1) = a + 2 + 2 * i by omega] at hnext
  · rintro ⟨hv, hwords⟩ (_ | i) w hw
    · cases hw
      exact hv
    · rw [show a + 2 * (i + 1) = a + 2 + 2 * i by omega]
      exact hwords i w hw

theorem holds_append {m : Memory} {a : Nat} {l1 l2 : List Half} :
    Memory.holds m a (l1 ++ l2) ↔ Memory.holds m a l1 ∧ Memory.holds m (a + 2 * l1.length) l2 := by
  induction l1 generalizing a with
  | nil => simp [Memory.holds]
  | cons v l1 ih =>
    rw [List.cons_append, holds_cons, holds_cons, ih, and_assoc, List.length_cons,
      show a + 2 + 2 * l1.length = a + 2 * (l1.length + 1) by omega]

/-! ### One word of a frame whose start checks have passed -/

/-- The DECODE of `s` between two words: what it has written, and where it stands. -/
def working (s : State) (m : Memory) (d : DecodeWork) : State := { s with mem := m, engine := .decoding d }

theorem working_self {s : State} {d : DecodeWork} (hd : s.engine = .decoding d) : working s s.mem d = s := by
  rw [working, ← hd]

/-- Nothing outside the row payloads has changed (R111). -/
def KeepsOutside (s : State) (m : Memory) : Prop :=
  ∀ a, s.operands.inPixels .decode a = false → Memory.read m a = Memory.read s.mem a

/-- R172: no byte of the stream is a payload byte, so every fetch sees the stream as it was at command start. -/
theorem stream_not_inPixels {o : Operands} (hnone : o.startError .decode = none) {i : Nat} (hi : i < o.len) :
    o.inPixels .decode (o.stream + i) = false := by
  obtain ⟨-, hcfg, -⟩ := Operands.startError_eq_none.mp hnone
  obtain ⟨-, -, hapart⟩ := Operands.badConfig_eq_false.mp hcfg
  refine Bool.eq_false_iff.mpr fun hin => ?_
  obtain ⟨r, hr, hfrom, hto⟩ := (Operands.inPixels_eq_true hcfg _).mp hin
  have hend : o.bufferRow r + o.payload .decode ≤ o.pend .decode := Operands.bufferRow_end_le_pend hr
  have hbegin : o.pixAddr.toNat ≤ o.bufferRow r := Nat.le_add_right ..
  rcases (hapart (by decide)).2 with hzero | hafter | hbefore
  · omega
  · omega
  · rw [Operands.send] at hbefore
    omega

theorem read16_stream {s : State} {m : Memory} (hnone : s.operands.startError .decode = none)
    (hkept : KeepsOutside s m) {i : Nat} (hi : i + 2 ≤ s.operands.len) :
    Memory.read16 m (s.operands.stream + i) = Memory.read16 s.mem (s.operands.stream + i) := by
  rw [Memory.read16, Memory.read16, hkept _ (stream_not_inPixels hnone (by omega)), Nat.add_assoc,
    hkept _ (stream_not_inPixels hnone (by omega))]

/-- R101, R102: the fetch of a word. -/
theorem tokenStep_working {s : State} {m : Memory} {d : DecodeWork} {v : Half}
    (hnone : s.operands.startError .decode = none) (hkept : KeepsOutside s m) (hroom : d.cur + 2 ≤ s.operands.len)
    (hword : Memory.read16 s.mem (s.operands.stream + d.cur) = v) :
    (working s m d).tokenStep d = exec (decodeAt d.pos v) (working s m { d with cur := d.cur + 2 }) := by
  have hspace := stream_in_space (c := .decode) (by decide) hnone
  have hend : s.operands.stream + d.cur + 2 ≤ 2 ^ 32 := by omega
  rw [← hword, ← read16_stream hnone hkept hroom]
  exact tokenStep_of_room (s := working s m d) hroom hend

theorem count_toNat (t : Half) : (t.extractLsb' 0 4).toNat = (itemPixels t).length := by
  rw [itemPixels, List.length_replicate, BitVec.extractLsb'_toNat, BitVec.toNat_and, Nat.shiftRight_zero]
  exact (Nat.and_two_pow_sub_one_eq_mod t.toNat 4).symm

/-- R103, R104: an item that is not the sentinel writes its pixels, none for a ZRUN. -/
theorem exec_item {s : State} {d : DecodeWork} {t : Half} (hd : s.engine = .decoding d) (hpos : d.pos = .item)
    (ht : t ≠ 0#16) (hx : d.xpos + (itemPixels t).length ≤ s.operands.cols)
    (ha : s.operands.rowaddr d.k + 2 * (d.xpos + (itemPixels t).length) ≤ 2 ^ 32) :
    exec (decodeItem t) s = .next
      (working s
        (Memory.writePixels s.mem (s.operands.rowaddr d.k + 2 * d.xpos) (widen t) (itemPixels t).length)
        { d with xpos := d.xpos + (itemPixels t).length }) := by
  rw [← count_toNat] at hx ha ⊢
  by_cases hcount : t.extractLsb' 0 4 = 0#4
  · rw [DecodeTokens.decodeItem_of_count_zero ht hcount, DecodeTokens.exec_zrun_of_item hd hpos, hcount]
    exact congrArg Host.Outcome.next (working_self hd).symm
  · rw [decodeItem_of_count_ne_zero hcount, exec_run_of_fits hd hpos hx ha, tokenWord_fields]
    rfl

/-! ### One row -/

/-- The end of a row's payload, in pixels. -/
theorem pixel_end_le {o : Operands} (hnone : o.startError .decode = none) {k x : Nat} (hk : k < o.rows)
    (hx : x ≤ o.cols) : o.rowaddr k + 2 * x ≤ 2 ^ 32 := by
  have hend := Operands.rowaddr_end_le (Operands.startError_eq_none.mp hnone).2.1 hk
  rw [payload_decode] at hend
  omega

theorem keepsOutside_writePixels {s : State} {m : Memory} (hnone : s.operands.startError .decode = none)
    (hm : Memory.wf m) (hkept : KeepsOutside s m) {k x n : Nat} (v : Half) (hk : k < s.operands.rows)
    (hx : x + n ≤ s.operands.cols) :
    KeepsOutside s (Memory.writePixels m (s.operands.rowaddr k + 2 * x) v n) := fun a ha =>
  (Memory.read_run v hm hnone hk hx ha).trans (hkept a ha)

/-- What some items of row `k` leave: their pixels from column `x` on, and nothing else. -/
structure ItemsWritten (s : State) (m m' : Memory) (k x : Nat) (pixels : List Half) : Prop where
  wf : Memory.wf m'
  outside : KeepsOutside s m'
  pixel : ∀ i p, pixels[i]? = some p → Memory.read16 m' (s.operands.rowaddr k + 2 * (x + i)) = p
  frame : ∀ a, (a < s.operands.rowaddr k + 2 * x ∨ s.operands.rowaddr k + 2 * (x + pixels.length) ≤ a) →
    Memory.read m' a = Memory.read m a

theorem replicate_itemPixels (t : Half) : List.replicate (itemPixels t).length (widen t) = itemPixels t := by
  rw [itemPixels, List.length_replicate]

/-- One item's copies of one pixel. -/
theorem itemsWritten_writePixels {s : State} {m : Memory} (hnone : s.operands.startError .decode = none)
    (hm : Memory.wf m) (hkept : KeepsOutside s m) {k x n : Nat} (v : Half) (hk : k < s.operands.rows)
    (hx : x + n ≤ s.operands.cols) :
    ItemsWritten s m (Memory.writePixels m (s.operands.rowaddr k + 2 * x) v n) k x (List.replicate n v) := by
  have hend := pixel_end_le hnone hk hx
  have hspace : s.operands.rowaddr k + 2 * x + 2 * n ≤ 2 ^ 32 := by omega
  refine ⟨Memory.wf_writePixels v hm hspace, keepsOutside_writePixels hnone hm hkept v hk hx, fun i p hp => ?_,
    fun a ha => ?_⟩
  · obtain ⟨hi, rfl⟩ := List.getElem?_eq_some_iff.mp hp
    rw [List.length_replicate] at hi
    rw [List.getElem_replicate, Nat.mul_add, ← Nat.add_assoc]
    exact Memory.read16_writePixels v hm hspace hi
  · rw [List.length_replicate] at ha
    exact Memory.read_writePixels_outside v hm hspace (by omega)

/-- Items side by side. -/
theorem ItemsWritten.append {s : State} {m m1 m2 : Memory} {k x : Nat} {l1 l2 : List Half}
    (h1 : ItemsWritten s m m1 k x l1) (h2 : ItemsWritten s m1 m2 k (x + l1.length) l2) :
    ItemsWritten s m m2 k x (l1 ++ l2) := by
  refine ⟨h2.wf, h2.outside, fun i p hp => ?_, fun a ha => ?_⟩
  · by_cases hi : i < l1.length
    · rw [List.getElem?_append_left hi] at hp
      rw [← h1.pixel i p hp, Memory.read16, Memory.read16, h2.frame _ (.inl (by omega)),
        h2.frame _ (.inl (by omega))]
    · rw [List.getElem?_append_right (by omega)] at hp
      rw [← h2.pixel _ p hp, show x + l1.length + (i - l1.length) = x + i by omega]
  · rw [List.length_append] at ha
    rw [h2.frame a (by omega), h1.frame a (by omega)]

/-- R102 to R104: the items of a row, one word after another, take the DECODE to the word after them. -/
theorem exec_items {s : State} (hnone : s.operands.startError .decode = none) {m : Memory} {d : DecodeWork}
    {items : List Half} (hm : Memory.wf m) (hkept : KeepsOutside s m) (hpos : d.pos = .item)
    (hk : d.k < s.operands.rows) (hitems : ∀ t ∈ items, t ≠ 0#16)
    (hwords : Memory.holds s.mem (s.operands.stream + d.cur) items)
    (hroom : d.cur + 2 * items.length ≤ s.operands.len)
    (hx : d.xpos + (items.flatMap itemPixels).length ≤ s.operands.cols) :
    ∃ m', exec .decode (working s m d) =
        exec .decode (working s m'
          { d with cur := d.cur + 2 * items.length, xpos := d.xpos + (items.flatMap itemPixels).length }) ∧
      ItemsWritten s m m' d.k d.xpos (items.flatMap itemPixels) := by
  induction items generalizing m d with
  | nil => exact ⟨m, rfl, hm, hkept, fun i p hp => by simp at hp, fun _ _ => rfl⟩
  | cons t items ih =>
    obtain ⟨ht, hrest⟩ := List.forall_mem_cons.mp hitems
    obtain ⟨hword, hwords⟩ := holds_cons.mp hwords
    rw [List.length_cons] at hroom
    rw [List.flatMap_cons, List.length_append] at hx
    have hfirst := itemsWritten_writePixels hnone hm hkept (widen t) hk
      (show d.xpos + (itemPixels t).length ≤ s.operands.cols by omega)
    have hstep : (working s m d).tokenStep d = .next (working s
        (Memory.writePixels m (s.operands.rowaddr d.k + 2 * d.xpos) (widen t) (itemPixels t).length)
        { d with cur := d.cur + 2, xpos := d.xpos + (itemPixels t).length }) := by
      have hitem : decodeAt d.pos t = decodeItem t := by rw [hpos]; rfl
      rw [tokenStep_working hnone hkept (by omega) hword, hitem]
      exact exec_item (s := working s m { d with cur := d.cur + 2 }) rfl hpos ht (by dsimp only [working]; omega)
        (pixel_end_le hnone hk (by dsimp only; omega))
    obtain ⟨m', hexec, hwritten⟩ := ih
      (d := { d with cur := d.cur + 2, xpos := d.xpos + (itemPixels t).length }) hfirst.wf hfirst.outside hpos hk hrest
      hwords (by dsimp only; omega) (by dsimp only; omega)
    refine ⟨m', ?_, ?_⟩
    · rw [exec_decode_of_tokenStep rfl hstep rfl, hexec]
      simp only [List.length_cons, List.flatMap_cons, List.length_append]
      congr 3 <;> omega
    · rw [replicate_itemPixels] at hfirst
      exact hfirst.append hwritten

/-- Where a row begins (R20, R108). -/
def rowStart (cur k : Nat) (short : Bool) : DecodeWork :=
  { cur := cur, c0 := cur, k := k, xpos := 0, short := short, pos := .item }

/-- Whether a row that ends at `d` leaves the short-row flag set (R107). -/
def shortAfter (o : Operands) (d : DecodeWork) : Bool := d.short || decide (d.xpos < o.cols)

/-- R107, R108: what a DECODE answers that ends row `k` at `cur`: what the next row answers, or the completion. -/
structure RowEnds (s : State) (m : Memory) (cur k : Nat) (short : Bool) (a : Answer) : Prop where
  goesOn : k + 1 < s.operands.rows → a = exec .decode (working s m (rowStart cur (k + 1) short))
  completes : s.operands.rows ≤ k + 1 → a = .next (s.completed m (okReport cur false short))

theorem rowEnds_of_tokenStep {s : State} {m : Memory} {d e d' : DecodeWork}
    (hstep : (working s m d).tokenStep d = .next ((working s m e).endDecodeRow d')) :
    RowEnds s m d'.cur d'.k (shortAfter s.operands d') (exec .decode (working s m d)) := by
  refine ⟨fun hk => ?_, fun hk => ?_⟩
  · rw [endDecodeRow_of_lt (s := working s m e) hk] at hstep
    exact exec_decode_of_tokenStep rfl hstep rfl
  · rw [endDecodeRow_of_le (s := working s m e) hk] at hstep
    exact exec_decode_of_last_tokenStep rfl hstep rfl

/-- The sentinel of a row of `n` items, and the pad word that is due where the row has an odd number of words. -/
def rowTail (n : Nat) (padWord : Half) : List Half := 0#16 :: if (n + 1) % 2 = 1 then [padWord] else []

theorem words_eq (r : StreamRow) : r.words = r.items ++ rowTail r.items.length r.padWord := by
  rw [StreamRow.words, List.append_assoc]
  rfl

/-- R105, R106: the sentinel and the pad word of a row. -/
theorem exec_rowTail {s : State} (hnone : s.operands.startError .decode = none) {m : Memory} {d : DecodeWork}
    {n : Nat} {padWord : Half} (hkept : KeepsOutside s m) (hpos : d.pos = .item) (hcur : d.cur = d.c0 + 2 * n)
    (hwords : Memory.holds s.mem (s.operands.stream + d.cur) (rowTail n padWord))
    (hroom : d.cur + 2 * (rowTail n padWord).length ≤ s.operands.len) :
    RowEnds s m (d.cur + 2 * (rowTail n padWord).length) d.k (shortAfter s.operands d)
      (exec .decode (working s m d)) := by
  obtain ⟨hsentinel, hpad⟩ := holds_cons.mp hwords
  have heor : decodeAt d.pos 0#16 = .eor := by rw [hpos]; rfl
  have hroom1 : d.cur + 2 ≤ s.operands.len := by rw [rowTail, List.length_cons] at hroom; omega
  have hstep : (working s m d).tokenStep d = _ :=
    (tokenStep_working hnone hkept hroom1 hsentinel).trans
      (heor ▸ exec_eor_of_item (s := working s m { d with cur := d.cur + 2 }) rfl hpos)
  by_cases hodd : (n + 1) % 2 = 1
  · rw [if_pos (by dsimp only; omega)] at hstep
    rw [if_pos hodd] at hpad
    obtain ⟨hpadWord, -⟩ := holds_cons.mp hpad
    have hlen : (rowTail n padWord).length = 2 := by rw [rowTail, if_pos hodd]; rfl
    rw [hlen] at hroom ⊢
    have hlast := tokenStep_working (d := { d with cur := d.cur + 2, pos := .padding }) hnone hkept
      (by dsimp only; omega) hpadWord
    rw [exec_decode_of_tokenStep rfl hstep rfl]
    exact rowEnds_of_tokenStep (hlast.trans (exec_pad_of_padding rfl rfl padWord))
  · rw [if_neg (by dsimp only; omega)] at hstep
    have hlen : (rowTail n padWord).length = 1 := by rw [rowTail, if_neg hodd]; rfl
    rw [hlen]
    exact rowEnds_of_tokenStep hstep

/-- R69, R108: a whole row, from its first word to its end. -/
theorem exec_row {s : State} (hnone : s.operands.startError .decode = none) {m : Memory} {cur k : Nat} {short : Bool}
    {r : StreamRow} (hm : Memory.wf m) (hkept : KeepsOutside s m) (hk : k < s.operands.rows)
    (hitems : ∀ t ∈ r.items, t ≠ 0#16) (hx : r.pixels.length ≤ s.operands.cols)
    (hwords : Memory.holds s.mem (s.operands.stream + cur) r.words)
    (hroom : cur + 2 * r.words.length ≤ s.operands.len) :
    ∃ m', RowEnds s m' (cur + 2 * r.words.length) k (short || decide (r.pixels.length < s.operands.cols))
        (exec .decode (working s m (rowStart cur k short))) ∧
      ItemsWritten s m m' k 0 r.pixels := by
  rw [words_eq] at hwords hroom ⊢
  obtain ⟨hitemWords, htail⟩ := holds_append.mp hwords
  rw [List.length_append, Nat.mul_add, ← Nat.add_assoc] at hroom ⊢
  rw [Nat.add_assoc] at htail
  obtain ⟨m', hexec, hwritten⟩ := exec_items (d := rowStart cur k short) hnone hm hkept rfl hk hitems hitemWords
    (Nat.le_of_add_right_le hroom) ((Nat.zero_add _).trans_le hx)
  refine ⟨m', ?_, hwritten⟩
  have hends := exec_rowTail (d := { rowStart cur k short with
    cur := cur + 2 * r.items.length, xpos := 0 + r.pixels.length }) hnone hwritten.outside rfl rfl htail hroom
  rw [shortAfter, Nat.zero_add] at hends
  rw [hexec]
  simpa only [rowStart, Nat.zero_add, StreamRow.pixels] using hends

/-! ### The rows of a frame -/

/-- What rows from row `k` on leave: their pixels from the left end on, and nothing else. -/
structure RowsWritten (o : Operands) (m m' : Memory) (k : Nat) (rows : List StreamRow) : Prop where
  pixel : ∀ j r i p, rows[j]? = some r → r.pixels[i]? = some p → Memory.read16 m' (o.rowaddr (k + j) + 2 * i) = p
  frame : ∀ a, (∀ j r i, rows[j]? = some r → i < 2 * r.pixels.length → a ≠ o.rowaddr (k + j) + i) →
    Memory.read m' a = Memory.read m a

/-- A row above others: the rows below do not meet it (R172). -/
theorem RowsWritten.cons {s : State} {m m1 m2 : Memory} {k : Nat} {r : StreamRow} {rows : List StreamRow}
    (hnone : s.operands.startError .decode = none) (hrows : k + (r :: rows).length ≤ s.operands.rows)
    (hx : ∀ q ∈ r :: rows, q.pixels.length ≤ s.operands.cols) (h1 : ItemsWritten s m m1 k 0 r.pixels)
    (h2 : RowsWritten s.operands m1 m2 (k + 1) rows) : RowsWritten s.operands m m2 k (r :: rows) := by
  have hcfg := (Operands.startError_eq_none.mp hnone).2.1
  rw [List.length_cons] at hrows
  obtain ⟨hxr, hxrows⟩ := List.forall_mem_cons.mp hx
  have hbelow : ∀ i, i < 2 * r.pixels.length → Memory.read m2 (s.operands.rowaddr k + i) =
      Memory.read m1 (s.operands.rowaddr k + i) := fun i hi => h2.frame _ fun j q l hq hl => by
    obtain ⟨hj, rfl⟩ := List.getElem?_eq_some_iff.mp hq
    have hxq := hxrows _ (List.getElem_mem hj)
    refine Operands.rowaddr_ne hcfg (by omega) (by omega) (by omega) ?_ ?_ <;> rw [payload_decode] <;> omega
  refine ⟨fun j q i p hq hp => ?_, fun a ha => ?_⟩
  · cases j with
    | zero =>
      obtain rfl : r = q := Option.some.inj hq
      have hi := (List.getElem?_eq_some_iff.mp hp).1
      rw [← h1.pixel i p hp, Nat.zero_add, Nat.add_zero, Memory.read16, Memory.read16, Nat.add_assoc,
        hbelow _ (by omega), hbelow _ (by omega)]
    | succ j =>
      rw [show k + (j + 1) = k + 1 + j by omega]
      exact h2.pixel j q i p hq hp
  · rw [h2.frame a fun j q i hq hi => ?_, h1.frame a ?_]
    · by_contra hin
      rw [Nat.zero_add] at hin
      exact ha 0 r (a - s.operands.rowaddr k) rfl (by omega) (by rw [Nat.add_zero]; omega)
    · rw [show k + 1 + j = k + (j + 1) by omega]
      exact ha (j + 1) q i hq hi

/-- R108: all the rows that are left, one after another. -/
theorem exec_rows {s : State} (hnone : s.operands.startError .decode = none) {m : Memory} {cur k : Nat} {short : Bool}
    {rows : List StreamRow} (hm : Memory.wf m) (hkept : KeepsOutside s m) (hne : rows ≠ [])
    (hrows : k + rows.length = s.operands.rows)
    (hfit : ∀ r ∈ rows, (∀ t ∈ r.items, t ≠ 0#16) ∧ r.pixels.length ≤ s.operands.cols)
    (hwords : Memory.holds s.mem (s.operands.stream + cur) (rows.flatMap StreamRow.words))
    (hroom : cur + 2 * (rows.flatMap StreamRow.words).length ≤ s.operands.len) :
    ∃ m', exec .decode (working s m (rowStart cur k short)) = .next (s.completed m'
        (okReport (cur + 2 * (rows.flatMap StreamRow.words).length) false
          (short || rows.any fun r => decide (r.pixels.length < s.operands.cols)))) ∧
      RowsWritten s.operands m m' k rows := by
  induction rows generalizing m cur k short with
  | nil => exact absurd rfl hne
  | cons r rows ih =>
    obtain ⟨⟨hitems, hx⟩, hfitRest⟩ := List.forall_mem_cons.mp hfit
    have hxAll : ∀ q ∈ r :: rows, q.pixels.length ≤ s.operands.cols := fun q hq => (hfit q hq).2
    rw [List.flatMap_cons] at hwords hroom ⊢
    obtain ⟨hrow, hrest⟩ := holds_append.mp hwords
    rw [List.length_append, Nat.mul_add, ← Nat.add_assoc] at hroom ⊢
    rw [Nat.add_assoc] at hrest
    have hk : k < s.operands.rows := by rw [List.length_cons] at hrows; omega
    obtain ⟨m1, hends, hwritten⟩ := exec_row (short := short) hnone hm hkept hk hitems hx hrow
      (Nat.le_of_add_right_le hroom)
    rw [List.any_cons, ← Bool.or_assoc]
    cases rows with
    | nil =>
      refine ⟨m1, ?_, .cons hnone hrows.le hxAll hwritten ⟨by simp, fun _ _ => rfl⟩⟩
      simpa using hends.completes hrows.ge
    | cons q rows =>
      obtain ⟨m2, hexec, hrest⟩ := ih (k := k + 1) hwritten.wf hwritten.outside (by simp)
        (by simp only [List.length_cons] at hrows ⊢; omega) hfitRest hrest hroom
      refine ⟨m2, (hends.goesOn ?_).trans hexec, .cons hnone hrows.le hxAll hwritten hrest⟩
      simp only [List.length_cons] at hrows
      omega

/-- Settles O37: the frame opens at its first row, and the rows run one after another. -/
theorem decodeWritesThePixelsOfTheStream : Obligations.DecodeWritesThePixelsOfTheStream := by
  intro s rows hm hpending hnone hrows hfit hroom hwords
  have hne : rows ≠ [] := by
    have hpos := (Operands.one_le_of_dimensions (Operands.startError_eq_none.mp hnone).1).2
    rintro rfl
    simp [← hrows] at hpos
  obtain ⟨m, hexec, hwritten⟩ := exec_rows (cur := 0) (k := 0) (short := false) hnone hm (fun _ _ => rfl) hne
    (by rw [Nat.zero_add, hrows]) hfit hwords (by rwa [Nat.zero_add])
  rw [Nat.zero_add, Bool.false_or] at hexec
  obtain ⟨hpixel, hframe⟩ := hwritten
  simp only [Nat.zero_add] at hpixel hframe
  exact ⟨m, (exec_decode_of_startOk hpending hnone).trans hexec, hpixel, hframe⟩

end Sys2Proof.DecodeFrame

/-! The statement of family other, 41_nibble_rle_decoder.md section 4: DECODE undoes ENCODE up to the mask (R110). -/

namespace Sys2Proof.DecodeOfEncode

open Sys2Proof.Machine Sys2Proof.StartCheckErrors Sys2Proof.PendingCommand Sys2Proof.StepInvariant
  Sys2Proof.TokenSteps Sys2Proof.RowRuns Sys2Proof.EncodeFrame Sys2Proof.DecodeFrame

/-! ### The rows an ENCODE writes, as DECODE meets them -/

/-- The stream row of a row of pixels: its run tokens, and a zero pad word where one is due (R142). -/
def encodedRow (pixels : List Half) : StreamRow := ⟨rowTokens pixels, 0#16⟩

/-- The stream rows of a frame, in stream order (R125). -/
def encodedRows (o : Operands) (m : Memory) : List StreamRow :=
  (List.range o.rows).map fun k => encodedRow (rowPixels m (o.rowaddr k) o.cols)

theorem encodedRow_pixels (pixels : List Half) : (encodedRow pixels).pixels = pixels.map (· &&& Config.qmask) :=
  rowTokens_pixels pixels

/-- R128: no token of a row is the sentinel. -/
theorem encodedRow_items_ne_zero (pixels : List Half) : ∀ t ∈ (encodedRow pixels).items, t ≠ 0#16 := by
  rintro t ht rfl
  exact rowTokens_count_ne_zero ht rfl

theorem encodedRows_words (o : Operands) (m : Memory) :
    (encodedRows o m).flatMap StreamRow.words = rowsWords o m o.rows := List.flatMap_map ..

theorem length_of_mem_encodedRows {o : Operands} {m : Memory} {r : StreamRow} (hr : r ∈ encodedRows o m) :
    r.pixels.length = o.cols := by
  obtain ⟨k, -, rfl⟩ := List.mem_map.mp hr
  rw [encodedRow_pixels, List.length_map, rowPixels_length]

theorem encodedRows_getElem? {o : Operands} {m : Memory} {k : Nat} (hk : k < o.rows) :
    (encodedRows o m)[k]? = some (encodedRow (rowPixels m (o.rowaddr k) o.cols)) := by
  rw [encodedRows, List.getElem?_map, List.getElem?_range hk]
  rfl

theorem encodedRow_pixel {m : Memory} {a w i : Nat} (hi : i < w) :
    (encodedRow (rowPixels m a w)).pixels[i]? = some (Memory.read16 m (a + 2 * i) &&& Config.qmask) := by
  rw [encodedRow_pixels, List.getElem?_map, rowPixels, List.getElem?_map, List.getElem?_range hi]
  rfl

/-! ### A successful ENCODE -/

theorem completed_error_ne {s t : State} {m : Memory} {e : ErrCode} {row off : Nat} {a : Answer} (he : e ≠ .noError)
    (ha : a = .next (s.completed m (errReport e row off))) (ht : a = .next t) : t.report.errCode ≠ .noError := by
  rw [ha] at ht
  cases ht
  exact he

/-- An ENCODE that ends without error passed its start checks and had room for its frame. -/
theorem encode_ok {s t : State} (hm : Memory.wf s.mem) (hpending : s.engine = .pending 2#32)
    (ht : exec .encode s = .next t) (hok : t.report.errCode = .noError) :
    s.operands.startError .encode = none ∧ frameBytes s.operands s.mem ≤ s.operands.len := by
  cases hstart : s.operands.startError .encode with
  | some e =>
    refine absurd hok (completed_error_ne ?_ (exec_memOp_of_startError (c := .encode) hpending hstart) ht)
    rintro rfl
    cases startError_raisedByBlock hstart
  | none =>
    refine ⟨rfl, ?_⟩
    by_contra hover
    obtain ⟨k, m, -, -, -, hexec, -⟩ :=
      encodeWithoutRoomIsAllocationFailure s hm hpending hstart (Nat.not_le.mp hover)
    exact completed_error_ne (by decide) hexec ht hok

theorem len_lt (o : Operands) : o.len < 2 ^ 32 := o.streamLen.isLt

/-- What a successful ENCODE reports and leaves in its stream. -/
theorem encode_stream {s t : State} (hm : Memory.wf s.mem) (hpending : s.engine = .pending 2#32)
    (ht : exec .encode s = .next t) (hok : t.report.errCode = .noError) :
    t.report.streamUsed.toNat = frameBytes s.operands s.mem ∧
      Memory.holds t.mem s.operands.stream (rowsWords s.operands s.mem s.operands.rows) := by
  obtain ⟨hnone, hfits⟩ := encode_ok hm hpending ht hok
  obtain ⟨m, hexec, hwords, -⟩ := encodeWritesTheStreamOfTheFrame s hm hpending hnone hfits
  obtain rfl : s.completed m (okReport (frameBytes s.operands s.mem) false false) = t := by
    rw [hexec] at ht
    cases ht
    rfl
  have hlt := hfits.trans_lt (len_lt s.operands)
  exact ⟨(BitVec.toNat_ofNat ..).trans (Nat.mod_eq_of_lt hlt), hwords⟩

/-- Words read back byte by byte in another memory. -/
theorem holds_of_bytes {m n : Memory} {a b : Nat} {words : List Half} (h : Memory.holds m a words)
    (hbytes : ∀ i, i < 2 * words.length → Memory.read n (b + i) = Memory.read m (a + i)) :
    Memory.holds n b words := by
  intro i v hv
  have hi := (List.getElem?_eq_some_iff.mp hv).1
  rw [← h i v hv, Memory.read16, Memory.read16, Nat.add_assoc, Nat.add_assoc, hbytes _ (by omega),
    hbytes _ (by omega)]

/-- Settles O38: the stream is that of `encodedRows`, whose pixels are the encoded pixels under the mask. -/
theorem decodeInvertsEncodeUpToTheMask : Obligations.DecodeInvertsEncodeUpToTheMask := by
  intro s t u hms hs ht hok hmu hu hnone hwidth hheight hroom hbytes
  have hcols : u.operands.cols = s.operands.cols := by rw [Operands.cols, hwidth, Operands.cols]
  have hrows : u.operands.rows = s.operands.rows := by rw [Operands.rows, hheight, Operands.rows]
  obtain ⟨hused, hwords⟩ := encode_stream hms hs ht hok
  have hlength : 2 * ((encodedRows s.operands s.mem).flatMap StreamRow.words).length = t.report.streamUsed.toNat := by
    rw [encodedRows_words, hused, frameBytes]
  have hshort : ((encodedRows s.operands s.mem).any fun r => decide (r.pixels.length < u.operands.cols)) = false := by
    refine List.any_eq_false.mpr fun r hr => ?_
    simp [length_of_mem_encodedRows hr, hcols]
  obtain ⟨m, hexec, hpixel, hframe⟩ := decodeWritesThePixelsOfTheStream u (encodedRows s.operands s.mem) hmu hu hnone
    (by rw [encodedRows, List.length_map, List.length_range, hrows])
    (fun r hr => by
      refine ⟨?_, by rw [length_of_mem_encodedRows hr, hcols]⟩
      obtain ⟨k, -, rfl⟩ := List.mem_map.mp hr
      exact encodedRow_items_ne_zero _)
    (by rwa [hlength])
    (by
      rw [encodedRows_words]
      refine holds_of_bytes hwords fun i hi => hbytes i ?_
      rw [hused]
      exact hi)
  rw [hlength, hshort] at hexec
  refine ⟨m, hexec, fun k i hk hi => ?_, fun a ha => hframe a fun k r i hr hi => ha k i ?_ ?_⟩
  · exact hpixel k _ i _ (encodedRows_getElem? (hrows ▸ hk)) (encodedRow_pixel (hcols ▸ hi))
  · have hk := (List.getElem?_eq_some_iff.mp hr).1
    rwa [encodedRows, List.length_map, List.length_range, ← hrows] at hk
  · rwa [length_of_mem_encodedRows (List.mem_of_getElem? hr), ← hcols] at hi

end Sys2Proof.DecodeOfEncode
